-- ==== Sys2Proof/Word.lean ====
section
/-! DEFINITION. The unsigned word types of the spec (R15: every value is an unsigned N-bit integer). -/

namespace Sys2Proof

/-- u8: a sample, a byte of a storage array, a byte of the output stream. -/
abbrev Byte := BitVec 8

/-- u32: a word of the continuous-run test (R57, R158). -/
abbrev Word32 := BitVec 32

/-- The word of SHA-512 (FIPS 180-4). -/
abbrev Word64 := BitVec 64

/-- Sixteen bytes: an AES block, an AES-128 key, a CBC initialisation vector (R14). -/
abbrev Block16 := Vector (BitVec 8) 16

/-- Sixty-four bytes: a SHA-512 digest, the content of KEYREG (R33). -/
abbrev Block64 := Vector (BitVec 8) 64

end Sys2Proof
end

