-- ==== Sys2Proof/Syntax.lean ====
section
/-! DEFINITION. The syntax of the core's inputs and records: pair classes and instructions (R70-R75), the words that
carry them, the mode (R21), the event records (R78). -/

namespace Sys2Proof

/-- The four pair classes, the debiaser's opcodes (R72). -/
inductive PairClass where
  /-- field `00`: push rejected bit 0 (R104) -/
  | rej0
  /-- field `01` (`x = 1`, `y = 0`): append output bit 1 (R102) -/
  | out1
  /-- field `10` (`x = 0`, `y = 1`): append output bit 0 (R103) -/
  | out0
  /-- field `11`: push rejected bit 1 (R105) -/
  | rej1
  deriving DecidableEq, Repr

/-- One constructor per row of opcode_table.json (R75). -/
inductive Instr where
  /-- SAMPLE, format S8 (R70, R100): the classes of the three pair fields and the two ignored bits. -/
  | sample (p0 p1 p2 : PairClass) (ign : BitVec 2)
  /-- VN_REJ0, format P2 (R104) -/
  | vnRej0
  /-- VN_OUT1, format P2 (R102) -/
  | vnOut1
  /-- VN_OUT0, format P2 (R103) -/
  | vnOut0
  /-- VN_REJ1, format P2 (R105) -/
  | vnRej1
  deriving DecidableEq, Repr

/-- The words of the two formats of the opcode table. The sample port carries S8 words only (R4, R70); a P2 word is one
of the three pair fields of such a word (R75), log 7. -/
inductive InWord where
  /-- an 8-bit sample word (R70) -/
  | s8 (b : Byte)
  /-- a 2-bit pair field (R72, R75) -/
  | p2 (p : BitVec 2)
  deriving DecidableEq, Repr

/-- MODE (R13, R21). -/
inductive Mode where
  | xor
  | aes
  deriving DecidableEq, Repr

/-- The event codes of R78. -/
inductive EventCode where
  /-- code 0, EV_RETAIN -/
  | retain
  /-- code 1, EV_EMIT_XOR -/
  | emitXor
  /-- code 2, EV_EMIT_AES -/
  | emitAes
  /-- code 3, EV_FIPS_FAIL -/
  | fipsFail
  /-- code 4, EV_WARMUP_DROP -/
  | warmupDrop
  deriving DecidableEq, Repr

/-- A status event record (R35, R78). -/
structure Event where
  code : EventCode
  mask : BitVec 5
  deriving DecidableEq, Repr

/-- The two bit orders of FIPS_SCAN_ORDER (R12, R151). -/
inductive ScanOrder where
  | lsbFirst
  | msbFirst
  deriving DecidableEq, Repr

end Sys2Proof
end

