-- ==== Sys2Proof/Config.lean ====
section
/-! DEFINITION. What is fixed for a whole run (R20, R244): the sizes the source states and the parameters the spec
leaves to a model (R9-R17, R161; I1-I4, I7, I8). Every operation takes a `Config`; the spec's settings are
`Machine.specConfig`. -/

namespace Sys2Proof

/-- BLOCK_BYTES (R9). -/
abbrev blockBytes : Nat := 2500

/-- BLOCK_BITS (R9). -/
abbrev blockBits : Nat := 20000

/-- PAIRS_PER_SAMPLE (R10). -/
abbrev pairsPerSample : Nat := 3

/-- Bytes of KEYREG (R33). -/
abbrev keyBytes : Nat := 64

/-- CIPHER_BYTES (R14, R196): the length of an AES-mode emission. -/
abbrev cipherBytes : Nat := 2512

/-- FIPS_LIMITS (R161). `runLo` and `runHi` list the entries for `c = 1 .. 6` in that order. -/
structure FipsLimits where
  monoLo   : Nat
  monoHi   : Nat
  pokerLo16 : Nat
  pokerHi16 : Nat
  runLo    : List Nat
  runHi    : List Nat
  longRun  : Nat
  deriving DecidableEq, Repr

/-- The parameters of the model. -/
structure Config where
  /-- HASH_BYTES (R11, D4, I2) -/
  hashBytes   : Nat
  /-- READY_PUSHES (I1): on which push since reset HASH_READY becomes 1 -/
  readyPushes : Nat
  /-- the packing and overwrite order of HBUF (I3): the byte and the bit that HPOS selects -/
  packing     : Nat → Nat × Nat
  /-- FIPS_SEED (R12, I8) -/
  fipsSeed    : Word32
  /-- CRNG_WORD_BITS (R12, R158); a narrower word is zero-extended in FIPS_LAST32 (log 16) -/
  crngWordBits : Nat
  /-- FIPS_SCAN_ORDER (R12, R151) -/
  scanOrder   : ScanOrder
  /-- FIPS_LIMITS (R161, I7) -/
  limits      : FipsLimits
  /-- the key and the initialisation vector cut from KEYREG's 64 bytes (I4, R192) -/
  keySplit    : List Byte → Block16 × Block16
  /-- SHA512 (R17) -/
  sha512      : List Byte → Block64
  /-- AES128_Enc: key, then plaintext block (R17) -/
  aes128      : Block16 → Block16 → Block16

end Sys2Proof
end

