-- ==== Sys2Proof/WellFormed.lean ====
section
/-! DEFINITION. Well-formedness checks on syntax and parameters. No instruction can be ill-formed (R73: decoding is
total, no sample value is illegal), so the checks that can refuse something are those on event records (R78) and on
the parameters (R11, R161; I1-I3). -/

namespace Sys2Proof

/-- R73: every value of every field of every instruction is legal. -/
def Instr.wellFormed : Instr → Bool
  | .sample _ _ _ _ => true
  | .vnRej0 => true
  | .vnOut1 => true
  | .vnOut0 => true
  | .vnRej1 => true

/-- R78: an EV_FIPS_FAIL record carries a non-zero mask, every other record the mask 0. -/
def Event.wellFormed (e : Event) : Bool :=
  match e.code with
  | .fipsFail => e.mask != 0
  | .retain | .emitXor | .emitAes | .warmupDrop => e.mask == 0

/-- R161: the run limits have one entry for each of the classes 1 .. 6. -/
def FipsLimits.wellFormed (L : FipsLimits) : Bool :=
  L.runLo.length == 6 && L.runHi.length == 6

/-- R11 and I1: HASH_BYTES is at least BLOCK_BYTES, READY_PUSHES at least one full cycle; R161 on the limits. -/
def Config.sizesOk (C : Config) : Bool :=
  decide (blockBytes ≤ C.hashBytes) && decide (8 * C.hashBytes ≤ C.readyPushes) && C.limits.wellFormed

/-- CRNG_WORD_BITS is a number of bytes that divides the block (R58), at least the 16 bits of FIPS 140-2 (D13) and at
most the 32 of FIPS_LAST32 (R30), log 16; FIPS_SEED is such a word. -/
def Config.crngOk (C : Config) : Bool :=
  decide (16 ≤ C.crngWordBits) && decide (C.crngWordBits ≤ 32) && C.crngWordBits % 8 == 0 &&
    blockBits % C.crngWordBits == 0 && decide (C.fipsSeed.toNat < 2 ^ C.crngWordBits)

/-- A packing sends every bit position of the cycle to a bit of a byte of HBUF (I3, R26). -/
def Config.packingOk (C : Config) : Prop :=
  ∀ h, h < 8 * C.hashBytes → (C.packing h).1 < C.hashBytes ∧ (C.packing h).2 < 8

/-- The parameters a model may take. -/
def Config.ok (C : Config) : Prop :=
  C.sizesOk = true ∧ C.crngOk = true ∧ C.packingOk

end Sys2Proof
end

