-- ==== Sys2Proof/Decode.lean ====
section
/-! DEFINITION. Decoding (R70-R75) and encoding of inputs; the encodings of the mode (R79) and of event records
(R78); the assembler's pseudo-instructions (R81). -/

namespace Sys2Proof

/-! ## Pair fields -/

/-- `Pk = b[2k+1:2k]` (R71). -/
def pairField (b : Byte) (k : Nat) : BitVec 2 := b.extractLsb' (2 * k) 2

/-- The IGN field `b[7:6]` (R70). -/
def ignField (b : Byte) : BitVec 2 := b.extractLsb' 6 2

/-- The table of R72, read on `x = Pk[0]` and `y = Pk[1]` (R71). -/
def PairClass.ofField (p : BitVec 2) : PairClass :=
  match p.getLsbD 0, p.getLsbD 1 with
  | false, false => .rej0
  | true, false => .out1
  | false, true => .out0
  | true, true => .rej1

/-- The pair field of a class (R72, opcode_table.json). -/
def PairClass.field : PairClass → BitVec 2
  | .rej0 => 0b00#2
  | .out1 => 0b01#2
  | .out0 => 0b10#2
  | .rej1 => 0b11#2

/-- The row of the opcode table that a pair class has (R75). -/
def Instr.ofClass : PairClass → Instr
  | .rej0 => .vnRej0
  | .out1 => .vnOut1
  | .out0 => .vnOut0
  | .rej1 => .vnRej1

/-! ## Decoding -/

/-- A sample is the instruction SAMPLE, split into its three pair classes (R75). Total (R73). -/
def decodeSample (b : Byte) : Instr :=
  .sample (.ofField (pairField b 0)) (.ofField (pairField b 1)) (.ofField (pairField b 2)) (ignField b)

/-- Decoding of a word of either format; no word is illegal (R73). -/
def decodeWord : InWord → Instr
  | .s8 b => decodeSample b
  | .p2 p => .ofClass (.ofField p)

/-- Why bytes or a table word give no instruction. -/
inductive DecodeReject where
  /-- no byte is left: there is no sample to decode -/
  | noSample
  /-- a P2 word wider than its two bits -/
  | notAPairField
  /-- an S8 word wider than its eight bits -/
  | notASample
  /-- neither format of the opcode table has this length (R74) -/
  | noSuchFormat
  deriving DecidableEq, Repr

/-- The next sample of a byte stream and the rest of the stream: every instruction is one byte long (R74). -/
def decodeBytes : List Byte → Except DecodeReject (Instr × List Byte)
  | [] => .error .noSample
  | b :: rest => .ok (decodeSample b, rest)

/-- All samples of a chunk, in order (R220). -/
def decodeChunk (bs : List Byte) : List Instr := bs.map decodeSample

/-- The word of a format given by its length and value. Eight bits are a sample; a word shorter than a byte is a pair
field (log 8). -/
def tableWord (nbits w : Nat) : Except DecodeReject InWord :=
  if nbits = 8 then
    if w < 256 then .ok (.s8 (BitVec.ofNat 8 w)) else .error .notASample
  else if nbits = 2 then
    if w < 4 then .ok (.p2 (BitVec.ofNat 2 w)) else .error .notAPairField
  else .error .noSuchFormat

/-- The host's view of the decoder. -/
def decodeTableWord (nbits w : Nat) : Option Instr :=
  match tableWord nbits w with
  | .ok v => some (decodeWord v)
  | .error _ => none

/-! ## Encoding -/

/-- The word of an instruction, in the format of its row (R70, R75). -/
def encode : Instr → InWord
  | .sample p0 p1 p2 ign => .s8 (ign ++ p2.field ++ p1.field ++ p0.field)
  | .vnRej0 => .p2 0b00#2
  | .vnOut1 => .p2 0b01#2
  | .vnOut0 => .p2 0b10#2
  | .vnRej1 => .p2 0b11#2

/-- The bytes an instruction occupies in a sample stream; the P2 formats are no bytes of the stream (R75). -/
def encodeBytes : Instr → List Byte
  | .sample p0 p1 p2 ign => [ign ++ p2.field ++ p1.field ++ p0.field]
  | .vnRej0 => []
  | .vnOut1 => []
  | .vnOut0 => []
  | .vnRej1 => []

/-! ## The mode and the event records -/

/-- cfg_mode: 0 = XOR, 1 = AES (R79, R21). -/
def Mode.ofBit (c : BitVec 1) : Mode := if c = 0 then .xor else .aes

/-- The bit of MODE (R21). -/
def Mode.bit : Mode → BitVec 1
  | .xor => 0
  | .aes => 1

/-- The 3-bit code of R78. -/
def EventCode.bits : EventCode → BitVec 3
  | .retain => 0
  | .emitXor => 1
  | .emitAes => 2
  | .fipsFail => 3
  | .warmupDrop => 4

/-- The code of a record; 5 to 7 are never produced (R78). -/
def EventCode.ofBits (c : BitVec 3) : Option EventCode :=
  match c.toNat with
  | 0 => some .retain
  | 1 => some .emitXor
  | 2 => some .emitAes
  | 3 => some .fipsFail
  | 4 => some .warmupDrop
  | _ => none

/-- The record byte: `code = rec[2:0]`, `mask = rec[7:3]` (R78). -/
def Event.byte (e : Event) : Byte := e.mask ++ e.code.bits

/-- The record of a byte, none for the codes 5 to 7. -/
def Event.ofByte (r : Byte) : Option Event :=
  (EventCode.ofBits (r.extractLsb' 0 3)).map fun c => { code := c, mask := r.extractLsb' 3 5 }

/-! ## The assembler (R81) -/

/-- The pair field that carries an output bit. -/
def outField (t : Bool) : BitVec 2 := if t then 0b01#2 else 0b10#2

/-- The pair field that carries a rejected bit. -/
def rejField (r : Bool) : BitVec 2 := if r then 0b11#2 else 0b00#2

/-- OBITS t0 t1 t2. -/
def obits (t0 t1 t2 : Bool) : Byte := 0#2 ++ outField t2 ++ outField t1 ++ outField t0

/-- RBITS r0 r1 r2. -/
def rbits (r0 r1 r2 : Bool) : Byte := 0#2 ++ rejField r2 ++ rejField r1 ++ rejField r0

/-- OSTREAM T: three output bits a sample; the unused pair fields of the last sample are `00`. -/
def ostream : List Bool → List Byte
  | [] => []
  | [t0] => [0#2 ++ 0#2 ++ 0#2 ++ outField t0]
  | [t0, t1] => [0#2 ++ 0#2 ++ outField t1 ++ outField t0]
  | t0 :: t1 :: t2 :: rest => obits t0 t1 t2 :: ostream rest

end Sys2Proof
end

