-- ==== Sys2Proof/Machine/Aes128.lean ====
section
/-! DEFINITION. The AES-128 forward cipher, the standard function of R8 and R17 (G2). The spec names FIPS 197 and does
not transcribe it: everything in this file is PRESUMED from the standard (log 3) and checked against the spec's
vectors V-G2, V-C2. The state is a list of sixteen bytes, byte 0 first: row `i % 4`, column `i / 4`. -/

namespace Sys2Proof.Machine

/-- Multiplication by x in GF(2^8). -/
def gfTwice (a : Byte) : Byte := if a.getLsbD 7 then (a <<< 1) ^^^ 0x1b#8 else a <<< 1

/-- The product in GF(2^8), over the low `n` bits of the second factor. -/
def gfMulBits : Nat → Byte → Byte → Byte
  | 0, _, _ => 0
  | n + 1, a, b => (if b.getLsbD 0 then a else 0) ^^^ gfMulBits n (gfTwice a) (b >>> 1)

/-- The product in GF(2^8). -/
def gfMul (a b : Byte) : Byte := gfMulBits 8 a b

/-- The inverse in GF(2^8), `a ^ 254`; the inverse of 0 is 0. -/
def gfInv (a : Byte) : Byte :=
  let a2 := gfMul a a
  let a4 := gfMul a2 a2
  let a8 := gfMul a4 a4
  let a16 := gfMul a8 a8
  let a32 := gfMul a16 a16
  let a64 := gfMul a32 a32
  let a128 := gfMul a64 a64
  gfMul a2 (gfMul a4 (gfMul a8 (gfMul a16 (gfMul a32 (gfMul a64 a128)))))

/-- Rotate left within eight bits. -/
def rotl8 (x : Byte) (n : Nat) : Byte := (x <<< n) ||| (x >>> (8 - n))

/-- The S-box: the inverse, then the affine map. -/
def aesSbox (a : Byte) : Byte :=
  let b := gfInv a
  b ^^^ rotl8 b 1 ^^^ rotl8 b 2 ^^^ rotl8 b 3 ^^^ rotl8 b 4 ^^^ 0x63#8

def aesSubBytes (s : List Byte) : List Byte := s.map aesSbox

/-- Row `r` moves left by `r` columns. -/
def aesShiftRows (s : List Byte) : List Byte :=
  (List.range 16).map fun i => s.getD ((i + 4 * (i % 4)) % 16) 0

/-- Byte `r` of the column that starts at `c`, rows counted modulo 4. -/
def columnByte (s : List Byte) (c r : Nat) : Byte := s.getD (4 * c + r % 4) 0

def aesMixColumns (s : List Byte) : List Byte :=
  (List.range 16).map fun i =>
    let c := i / 4
    let r := i % 4
    gfTwice (columnByte s c r) ^^^ (gfTwice (columnByte s c (r + 1)) ^^^ columnByte s c (r + 1)) ^^^
      columnByte s c (r + 2) ^^^ columnByte s c (r + 3)

/-- The bytewise exclusive-or of two byte strings. -/
def xorBytes (a b : List Byte) : List Byte := List.zipWith (· ^^^ ·) a b

/-- The next round key from a round key and the round constant. -/
def aesNextKey (k : List Byte) (rcon : Byte) : List Byte :=
  let t := [aesSbox (k.getD 13 0) ^^^ rcon, aesSbox (k.getD 14 0), aesSbox (k.getD 15 0), aesSbox (k.getD 12 0)]
  let w0 := xorBytes (k.take 4) t
  let w1 := xorBytes ((k.drop 4).take 4) w0
  let w2 := xorBytes ((k.drop 8).take 4) w1
  let w3 := xorBytes (k.drop 12) w2
  w0 ++ w1 ++ w2 ++ w3

/-- `n` rounds with MixColumns and then the last round, from the round key `k` just used. -/
def aesRounds : Nat → Byte → List Byte → List Byte → List Byte
  | 0, rcon, k, s => xorBytes (aesShiftRows (aesSubBytes s)) (aesNextKey k rcon)
  | n + 1, rcon, k, s =>
    let k' := aesNextKey k rcon
    aesRounds n (gfTwice rcon) k' (xorBytes (aesMixColumns (aesShiftRows (aesSubBytes s))) k')

/-- AES128_Enc(key, p), byte 0 first (R17, R197). -/
def aes128 (key p : Block16) : Block16 :=
  let c := aesRounds 9 1 key.toList (xorBytes p.toList key.toList)
  Vector.ofFn fun i => c.getD i.val 0

end Sys2Proof.Machine
end

