-- ==== Sys2Proof/Machine/Sha512.lean ====
section
/-! DEFINITION. SHA-512, the standard function of R8 and R17 (G1). The spec names FIPS 180-4 and does not transcribe
it: everything in this file is PRESUMED from the standard (log 3) and checked against the spec's vectors V-G1, V-A5. -/

namespace Sys2Proof.Machine

/-- Bits `b - 1` down to 0 of the greatest number whose `r`-th power is at most `n`, below the bits found in `x`. -/
def rootSearch (r n : Nat) : Nat → Nat → Nat
  | 0, x => x
  | b + 1, x => rootSearch r n b (if (x + 2 ^ b) ^ r ≤ n then x + 2 ^ b else x)

/-- The first 64 bits of the fractional part of the `r`-th root of `p`, for a root below 2 ^ 5. -/
def rootFraction (r p : Nat) : Word64 := BitVec.ofNat 64 (rootSearch r (p * 2 ^ (64 * r)) 69 0)

/-- The first eighty primes, the last of which is 409. -/
def shaPrimes : List Nat :=
  (List.range' 2 408).filter fun n => (List.range' 2 19).all fun d => n == d || n % d != 0

/-- The round constants: cube roots of the first eighty primes. -/
def shaConstants : List Word64 := shaPrimes.map (rootFraction 3)

/-- The initial chaining value: square roots of the first eight primes. -/
def shaInit : List Word64 := (shaPrimes.take 8).map (rootFraction 2)

/-- The exclusive-or of right rotations of a word, by the amounts listed. -/
def rotations (amounts : List Nat) (x : Word64) : Word64 := (amounts.map x.rotateRight).foldr (· ^^^ ·) 0

/-- Mixes a word on its way into the schedule: rotations and a shift. -/
def shaMix (r0 r1 sh : Nat) (x : Word64) : Word64 := x >>> sh ^^^ rotations [r0, r1] x

/-- Each bit from `y` where `x` has a 1, from `z` elsewhere. -/
def shaChoose (x y z : Word64) : Word64 := z ^^^ (x &&& (y ^^^ z))

/-- Each bit as most of the three words have it. -/
def shaMajority (x y z : Word64) : Word64 := (x &&& y) ||| (z &&& (x ||| y))

/-- One round on the eight working variables, with constant `k` and schedule word `w`: six move up by one place, the
fourth is fed on the way, and a new first one comes in. -/
def shaRound (v : List Word64) (k w : Word64) : List Word64 :=
  let work (i : Nat) : Word64 := v.getD i 0
  let fed := k + w + work 7 + shaChoose (work 4) (work 5) (work 6) + rotations [14, 18, 41] (work 4)
  (fed + shaMajority (work 0) (work 1) (work 2) + rotations [28, 34, 39] (work 0)) :: v.take 3 ++
    (work 3 + fed) :: (v.drop 4).take 3

/-- Slides the window of the last sixteen schedule words by one. -/
def shaSlide (w : List Word64) : List Word64 :=
  w.drop 1 ++ [w.getD 0 0 + shaMix 1 8 7 (w.getD 1 0) + w.getD 9 0 + shaMix 19 61 6 (w.getD 14 0)]

/-- The rounds for the constants listed, with the schedule window `w`. -/
def shaRounds : List Word64 → List Word64 → List Word64 → List Word64
  | [], _, v => v
  | k :: ks, w, v => shaRounds ks (shaSlide w) (shaRound v k (w.getD 0 0))

/-- A big-endian word of the bytes listed. -/
def bigEndian (bs : List Byte) : Word64 :=
  bs.foldl (fun w b => (w <<< 8) ||| b.setWidth 64) 0

/-- The first `n` groups of `k` bytes of a byte string. -/
def groupsOf (k : Nat) : Nat → List Byte → List (List Byte)
  | 0, _ => []
  | n + 1, bs => bs.take k :: groupsOf k n (bs.drop k)

/-- One 128-byte block, added to the chaining value word by word. -/
def shaBlock (v : List Word64) (blk : List Byte) : List Word64 :=
  List.zipWith (· + ·) v (shaRounds shaConstants ((groupsOf 8 16 blk).map bigEndian) v)

/-- The padded message: 0x80, zeros, and the bit length in sixteen big-endian bytes. -/
def shaPad (m : List Byte) : List Byte :=
  m ++ [0x80#8] ++ List.replicate ((239 - m.length % 128) % 128) 0#8 ++
    (List.range 16).map fun i => BitVec.ofNat 8 ((8 * m.length) >>> (8 * (15 - i)))

/-- SHA512(m), message byte 0 first (R17). -/
def sha512 (m : List Byte) : Block64 :=
  let p := shaPad m
  let v := (groupsOf 128 (p.length / 128) p).foldl shaBlock shaInit
  Vector.ofFn fun i => (v.getD (i.val / 8) 0).extractLsb' (8 * (7 - i.val % 8)) 8

end Sys2Proof.Machine
end

