-- ==== Sys2Proof/Machine/Parameters.lean ====
section
/-! DEFINITION. The spec's settings of the parameters (R11, R12, R161; D4, D5, D7, D11-D13, D15), log 2. -/

namespace Sys2Proof.Machine

/-- The limits of R161 (D11; PRESUMED by the spec from FIPS 140-2). -/
def specLimits : FipsLimits where
  monoLo := 9725
  monoHi := 10275
  pokerLo16 := 25010800
  pokerHi16 := 25230850
  runLo := [2315, 1114, 527, 240, 103, 103]
  runHi := [2685, 1386, 723, 384, 209, 209]
  longRun := 26

/-- Bit `HPOS & 7` of byte `HPOS >> 3` (R26, R55, D5). -/
def specPacking (h : Nat) : Nat × Nat := (h / 8, h % 8)

/-- The block of the first sixteen bytes of a byte string. -/
def toBlock16 (bs : List Byte) : Block16 := Vector.ofFn fun i => bs.getD i.val 0

/-- key = KEYREG[0..16), iv = KEYREG[16..32) (R192, D15, C3). -/
def specKeySplit (k : List Byte) : Block16 × Block16 := (toBlock16 k, toBlock16 (k.drop 16))

/-- FIPS_SEED (R162, D13). -/
def specSeed : Word32 := 0x00000000#32

/-- The spec's settings. -/
def specConfig : Config where
  hashBytes := 2500
  readyPushes := 20000
  packing := specPacking
  fipsSeed := specSeed
  crngWordBits := 32
  scanOrder := .lsbFirst
  limits := specLimits
  keySplit := specKeySplit
  sha512 := sha512
  aes128 := aes128

end Sys2Proof.Machine
end

