-- ==== Sys2Proof/Machine/State.lean ====
section
/-! DEFINITION. The state: the tuple of R20, the model's own push counter (log 14) and the host beside the core
(log 9); the state after reset (R240); why a step may stop. -/

namespace Sys2Proof.Machine

/-- A storage array (R50): its bytes that differ from 0x00, by index, indices strictly rising. An index that is not
listed reads as 0x00, the reset content of all four arrays (R240), log 5. -/
abbrev Mem := List Host.Cell

/-- What the host still does at the ports of the core, apart from the sink. -/
inductive HostAct where
  /-- presents one sample at the sample port (R220) -/
  | present (b : Byte)
  /-- a read of a chunk of `len` samples came back with `bytes` (R220, R225) -/
  | chunk (len : Nat) (bytes : List Byte)
  /-- asserts reset with cfg_mode between two operations (R221, R240) -/
  | assertReset (m : Mode)
  /-- the termination flag is set (R224, R226) -/
  | terminate
  /-- the host's own startup fails (R221) -/
  | failStartup
  /-- asks for another mode without a reset (R241, I16) -/
  | switchMode (m : Mode)
  /-- presents a sample inside another operation (R227, I14) -/
  | presentInside (b : Byte)
  /-- asserts reset inside another operation (R243, I14) -/
  | resetInside (m : Mode)
  deriving DecidableEq, Repr

/-- What the sink still does when bytes are offered to it or it is gone (R222, R225, R226). -/
inductive SinkAct where
  /-- takes up to `n` pending bytes -/
  | accept (n : Nat)
  /-- the write fails with a pipe error -/
  | pipeError
  /-- the sink is open again -/
  | reopened
  /-- the re-open has failed for good -/
  | reopenFailed
  deriving DecidableEq, Repr

/-- The host driver's exit code: 0, or non-zero (R226). -/
inductive ExitCode where
  | clean
  | error
  deriving DecidableEq, Repr

/-- The host driver's phases (R226), and the one before the first reset (R221, I15). -/
inductive Phase where
  | notStarted
  | running
  | readerGone
  | terminated (code : ExitCode)
  deriving DecidableEq, Repr

/-- The host beside the core: no state of the core (DESIGN CHOICE, log 9, log 10). -/
structure HostSide where
  phase  : Phase
  daemon : Bool
  /-- the samples of the chunk in progress that are still to be presented (R220, R225) -/
  chunk  : List Byte
  /-- the actions at the sample and reset ports still to come, in order -/
  port   : List HostAct
  /-- the sink's responses still to come, in order -/
  sink   : List SinkAct
  /-- how many bytes at the front of OUT are no longer pending -/
  taken  : Nat
  deriving DecidableEq, Repr

/-- The state. The first fourteen fields are the tuple of R20, in its order. -/
structure State where
  /-- MODE (R21) -/
  mode       : Mode
  /-- ACC (R22) -/
  acc        : Mem
  /-- BITCNT (R23) -/
  bitcnt     : Nat
  /-- BYTECNT (R24) -/
  bytecnt    : Nat
  /-- HBUF (R25) -/
  hbuf       : Mem
  /-- HPOS (R26) -/
  hpos       : Nat
  /-- HASH_READY (R27) -/
  hashReady  : Bool
  /-- PREV (R28) -/
  prev       : Mem
  /-- HAVE_PREV (R29) -/
  havePrev   : Bool
  /-- FIPS_LAST32 (R30) -/
  fipsLast32 : Word32
  /-- LAST_MASK (R32) -/
  lastMask   : BitVec 5
  /-- KEYREG (R33) -/
  keyreg     : Mem
  /-- OUT (R34) -/
  out        : List Byte
  /-- EVT (R35) -/
  evt        : List Event
  /-- the model's own: rejected bits pushed since reset, for READY_PUSHES (I1), log 14 -/
  pushes     : Nat
  /-- the model's own: the host beside the core, log 9 -/
  env        : HostSide
  deriving DecidableEq, Repr

/-- The core in the state that RESET(m) leaves (R240), beside the host `e`. -/
def State.afterReset (C : Config) (m : Mode) (e : HostSide) : State where
  mode := m
  acc := []
  bitcnt := 0
  bytecnt := 0
  hbuf := []
  hpos := 0
  hashReady := false
  prev := []
  havePrev := false
  fipsLast32 := C.fipsSeed
  lastMask := 0
  keyreg := []
  out := []
  evt := []
  pushes := 0
  env := e

/-- A host that has just asserted reset and has nothing more to do (log 9, log 17). -/
def HostSide.started : HostSide where
  phase := .running
  daemon := false
  chunk := []
  port := []
  sink := []
  taken := 0

/-- The machine right after reset in the default mode, XOR (R13, R240). -/
def State.reset : State := State.afterReset specConfig .xor HostSide.started

/-! ## One update per group of elements that a rule writes together -/

/-- writes ACC -/
def State.withAcc (s : State) (m : Mem) : State := { s with acc := m }

/-- writes BITCNT and BYTECNT -/
def State.withPos (s : State) (bits bytes : Nat) : State := { s with bitcnt := bits, bytecnt := bytes }

/-- writes HBUF, HPOS, HASH_READY and the push counter -/
def State.withHash (s : State) (m : Mem) (h : Nat) (r : Bool) (n : Nat) : State :=
  { s with hbuf := m, hpos := h, hashReady := r, pushes := n }

/-- writes PREV and HAVE_PREV -/
def State.withPrev (s : State) (m : Mem) (p : Bool) : State := { s with prev := m, havePrev := p }

/-- writes FIPS_LAST32 and LAST_MASK -/
def State.withVerdict (s : State) (w : Word32) (k : BitVec 5) : State := { s with fipsLast32 := w, lastMask := k }

/-- writes KEYREG -/
def State.withKeyreg (s : State) (m : Mem) : State := { s with keyreg := m }

/-- writes OUT -/
def State.withOut (s : State) (o : List Byte) : State := { s with out := o }

/-- writes EVT -/
def State.withEvt (s : State) (l : List Event) : State := { s with evt := l }

/-- changes the host side -/
def State.withEnv (s : State) (e : HostSide) : State := { s with env := e }

/-- The core has no faults (R210): it raises no exception, no access is out of range, and SHA-512 and AES are total.
The type is empty. -/
inductive Fault where
  deriving DecidableEq, Repr

/-- Why the machine has no next state. All but the first are raised by the step for a host that breaks its duties
(R227, D27), never by an instruction's meaning; each is safe: the model stops where the spec gives no effect. -/
inductive Refusal where
  /-- raised by exec for an instruction without a meaning; safe. No instruction of this model is in that case. -/
  | notModelled (mnemonic : String)
  /-- raised by the step: a sample or a chunk before the first reset or after a termination (R227, I15); safe -/
  | sampleBeforeReset
  /-- raised by the step: a sample or a reset inside another operation (R227, R243, I14); safe -/
  | operationInProgress
  /-- raised by the step: a mode switch without a reset (R241, I16); safe -/
  | modeChangeWithoutReset
  /-- raised by the step: a startup failure reported while a run is under way, which R221 gives no meaning; safe -/
  | startupFailureInRun
  deriving DecidableEq, Repr

end Sys2Proof.Machine
end

