-- ==== Sys2Proof/Machine/Ops.lean ====
section
/-! DEFINITION. The named operations over the storage arrays and the ports (R16, R50-R53), the accumulators
(R120-R124, R126, R130) and RESET (R240). The core takes no exceptions (R210, R215, R216), so there is no operation
that enters or leaves one. -/

namespace Sys2Proof.Machine

/-! ## Storage arrays -/

/-- One byte of an array; an index that is not listed reads as 0x00 (log 5). -/
def Mem.read : Mem → Nat → Byte
  | [], _ => 0
  | (k, v) :: m, a => if k = a then v else Mem.read m a

/-- An array with `v` at `a` in front of indices above `a`; a zero is not listed. -/
def Mem.cons (a : Nat) (v : Byte) (m : Mem) : Mem := if v = 0 then m else (a, v) :: m

/-- Writes one byte and keeps the canonical form. -/
def Mem.write : Mem → Nat → Byte → Mem
  | [], a, v => Mem.cons a v []
  | (k, w) :: m, a, v =>
    if k < a then (k, w) :: Mem.write m a v
    else if k = a then Mem.cons a v m
    else Mem.cons a v ((k, w) :: m)

/-- The canonical form above `lo` and below `size`. -/
def Mem.wfFrom (size : Nat) : Nat → Mem → Bool
  | _, [] => true
  | lo, (k, v) :: m => decide (lo ≤ k) && decide (k < size) && v != 0 && Mem.wfFrom size (k + 1) m

/-- The canonical form of an array of `size` bytes: indices strictly rising and in range, no byte 0x00. -/
def Mem.wf (size : Nat) (m : Mem) : Bool := Mem.wfFrom size 0 m

/-- The first `size` bytes in index order, as one byte sequence. -/
def Mem.bytes (m : Mem) (size : Nat) : List Byte := (List.range size).map (Mem.read m)

/-- The array that holds a byte sequence from index `a` on and 0x00 elsewhere. -/
def Mem.ofBytesFrom : Nat → List Byte → Mem
  | _, [] => []
  | a, v :: bs => Mem.cons a v (Mem.ofBytesFrom (a + 1) bs)

/-- The array that holds a byte sequence from index 0 on: a write of the whole array (R53). -/
def Mem.ofBytes (bs : List Byte) : Mem := Mem.ofBytesFrom 0 bs

/-- A bit as a byte. -/
def bitByte (x : Bool) : Byte := if x then 1 else 0

/-- `v | (x << k)` (R120). -/
def orBit (v : Byte) (k : Nat) (x : Bool) : Byte := v ||| (bitByte x <<< k)

/-- `(v & ~(1 << k)) | (x << k)` (R130). -/
def putBit (v : Byte) (k : Nat) (x : Bool) : Byte := (v &&& ~~~(1#8 <<< k)) ||| (bitByte x <<< k)

/-! ## Ports -/

/-- Emit(s) (R16, R56). -/
def State.emit (s : State) (bs : List Byte) : State := s.withOut (s.out ++ bs)

/-- Event(code, mask) (R16, R35). -/
def State.logEvent (s : State) (c : EventCode) (k : BitVec 5) : State :=
  s.withEvt (s.evt ++ [{ code := c, mask := k }])

/-! ## RESET -/

/-- RESET(cfg_mode) on the core, beside the host `e` (R240). -/
def resetCore (C : Config) (m : Mode) (e : HostSide) : State := State.afterReset C m e

end Sys2Proof.Machine
end

