-- ==== Sys2Proof/Machine/Conditioner.lean ====
section
/-! DEFINITION. The conditioner: XOR mode (R180-R182), AES mode (R190-R199), and `digest` (R133). -/

namespace Sys2Proof.Machine

/-! ## XOR mode -/

/-- `E = B ^ PREV`, bytewise (R181). -/
def xorBlock (B : List Byte) (prev : Mem) : List Byte := xorBytes B (prev.bytes blockBytes)

/-- XOR_CONDITION(B) (R181, R182). -/
def xorCondition (B : List Byte) (s : State) : State :=
  let t := if s.havePrev then (s.emit (xorBlock B s.prev)).logEvent .emitXor 0 else s.logEvent .retain 0
  t.withPrev (Mem.ofBytes B) true

/-! ## AES mode -/

/-- `digest()`: SHA-512 over all of HBUF in index order, as it stands (R133). -/
def digest (C : Config) (s : State) : Block64 := C.sha512 (s.hbuf.bytes C.hashBytes)

/-- PKCS7(m) (R196). -/
def pkcs7 (m : List Byte) : List Byte :=
  let p := 16 - m.length % 16
  m ++ List.replicate p (BitVec.ofNat 8 p)

/-- The chain over the next `n` blocks of `P`, from the chaining value `c` (R197). -/
def cbcBlocks (enc : Block16 → Block16) : Nat → Block16 → List Byte → List Byte
  | 0, _, _ => []
  | n + 1, c, P =>
    let e := enc (toBlock16 (xorBytes (P.take 16) c.toList))
    e.toList ++ cbcBlocks enc n e (P.drop 16)

/-- CBC_Enc(key, iv, P) over the `len(P) / 16` blocks of `P` (R197). -/
def cbcEnc (C : Config) (key iv : Block16) (P : List Byte) : List Byte :=
  cbcBlocks (C.aes128 key) (P.length / 16) iv P

/-- DESTROY() (R199). -/
def destroyKey (s : State) : State := s.withKeyreg []

/-- AES_ENCRYPT_EMIT(B) (R191, R192, R195-R199). -/
def aesEncryptEmit (C : Config) (B : List Byte) (s : State) : State :=
  let s1 := s.withKeyreg (Mem.ofBytes (digest C s).toList)
  let ki := C.keySplit (s1.keyreg.bytes keyBytes)
  destroyKey ((s1.emit (cbcEnc C ki.1 ki.2 (pkcs7 B))).logEvent .emitAes 0)

/-- AES_CONDITION(B) (R190). -/
def aesCondition (C : Config) (B : List Byte) (s : State) : State :=
  if s.hashReady then aesEncryptEmit C B s else s.logEvent .warmupDrop 0

end Sys2Proof.Machine
end

