-- ==== Sys2Proof/Machine/Flags.lean ====
section
/-! DEFINITION. The flags of R38: when HASH_READY is set (R131, I1), and how the five test results make the failure
mask that LAST_MASK holds (R77, R150). HAVE_PREV is set to 1 by R181 alone. -/

namespace Sys2Proof.Machine

/-- Whether this push makes HASH_READY 1. With READY_PUSHES at one full cycle, the push that writes the last bit
position does (R130, R131); with a larger READY_PUSHES (I1, log 14), the push with that number. -/
def readyNow (C : Config) (s : State) : Bool :=
  if C.readyPushes = 8 * C.hashBytes then decide (s.hpos = 8 * C.hashBytes - 1)
  else decide (C.readyPushes ≤ s.pushes + 1)

/-- One result bit of the mask at its position (R77). -/
def maskBit (failed : Bool) (pos : Nat) : BitVec 5 := (if failed then 1#5 else 0#5) <<< pos

/-- The failure mask: monobit, poker, runs, long-run, continuous-run from bit 0 up (R77, R150). -/
def failureMask (mono poker runs long cont : Bool) : BitVec 5 :=
  maskBit mono 0 ||| maskBit poker 1 ||| maskBit runs 2 ||| maskBit long 3 ||| maskBit cont 4

end Sys2Proof.Machine
end

