-- ==== Sys2Proof/Machine/Fips.lean ====
section
/-! DEFINITION. The FIPS 140-2 health monitor (R150-R161). A result bit is 1 when its test failed (R77). -/

namespace Sys2Proof.Machine

/-! ## The test sequence -/

/-- The bits of one byte in the scan order (R151). -/
def scanByte (o : ScanOrder) (b : Byte) : List Bool :=
  (List.range 8).map fun k =>
    match o with
    | .lsbFirst => b.getLsbD k
    | .msbFirst => b.getLsbD (7 - k)

/-- SEQ(B) (R151). -/
def seqBits (o : ScanOrder) (B : List Byte) : List Bool := B.flatMap (scanByte o)

/-! ## Monobit -/

/-- The number of ones, X of R152. -/
def ones (s : List Bool) : Nat := s.count true

/-- The verdict on X; both comparisons are strict (R152). -/
def monobitFails (L : FipsLimits) (x : Nat) : Bool := !(decide (L.monoLo < x) && decide (x < L.monoHi))

/-- MONOBIT(s) (R152). -/
def monobit (L : FipsLimits) (s : List Bool) : Bool := monobitFails L (ones s)

/-! ## Poker -/

/-- The values of the 4-bit segments, first bit most significant (R153). -/
def segments : List Bool → List Nat
  | a :: b :: c :: d :: s => (8 * a.toNat + 4 * b.toNat + 2 * c.toNat + d.toNat) :: segments s
  | _ => []

/-- S of R153: the sum of the squares of the sixteen pattern counts. -/
def pokerSum (s : List Bool) : Nat :=
  let v := segments s
  ((List.range 16).map fun i => v.count i ^ 2).sum

/-- The verdict on S; both comparisons are strict (R153). -/
def pokerFails (L : FipsLimits) (sum : Nat) : Bool :=
  !(decide (L.pokerLo16 < 16 * sum) && decide (16 * sum < L.pokerHi16))

/-- POKER(s) (R153). -/
def poker (L : FipsLimits) (s : List Bool) : Bool := pokerFails L (pokerSum s)

/-! ## Runs -/

/-- One more bit in front of a list of runs. -/
def addToRuns (b : Bool) : List (Bool × Nat) → List (Bool × Nat)
  | [] => [(b, 1)]
  | (v, n) :: rs => if v = b then (v, n + 1) :: rs else (b, 1) :: (v, n) :: rs

/-- The runs of a bit sequence, each with its value and length; the first and the last count (R154, D14). -/
def runsOf (s : List Bool) : List (Bool × Nat) := s.foldr addToRuns []

/-- `cnt[v][c]` (R155). -/
def runCount (rs : List (Bool × Nat)) (v : Bool) (c : Nat) : Nat :=
  rs.countP fun r => r.1 == v && min r.2 6 == c

/-- A count against the interval of its class, inclusive at both ends (R155, R156). -/
def runCountFails (L : FipsLimits) (c n : Nat) : Bool :=
  !(decide (L.runLo.getD (c - 1) 0 ≤ n) && decide (n ≤ L.runHi.getD (c - 1) 0))

/-- RUNS on the list of runs: one counter out of range is enough (R156). -/
def runsFail (L : FipsLimits) (rs : List (Bool × Nat)) : Bool :=
  [false, true].any fun v => [1, 2, 3, 4, 5, 6].any fun c => runCountFails L c (runCount rs v c)

/-- LONGRUN on the list of runs (R157). -/
def longRunFails (L : FipsLimits) (rs : List (Bool × Nat)) : Bool :=
  rs.any fun r => decide (L.longRun ≤ r.2)

/-! ## Continuous run -/

/-- The little-endian word of up to four bytes (R57, R158). -/
def littleEndian : List Byte → Word32
  | [] => 0
  | b :: bs => b.setWidth 32 ||| (littleEndian bs <<< 8)

/-- The first `n` words of `size` bytes each, `w_0, w_1, …` (R158). -/
def blockWords (size : Nat) : Nat → List Byte → List Word32
  | 0, _ => []
  | n + 1, B => littleEndian (B.take size) :: blockWords size n (B.drop size)

/-- The comparison over the words listed, from the word before them: whether some word equals the one before it, and
the last word (R159). -/
def crngWords : Word32 → List Word32 → Bool × Word32
  | prev, [] => (false, prev)
  | prev, w :: ws => let r := crngWords w ws; (decide (w = prev) || r.1, r.2)

/-- CRNG(B, last32) (R159), over all words of CRNG_WORD_BITS in the block. -/
def crng (C : Config) (B : List Byte) (last32 : Word32) : Bool × Word32 :=
  let size := C.crngWordBits / 8
  crngWords last32 (blockWords size (B.length / size) B)

/-! ## The monitor operation -/

/-- FIPS_TEST(B, last32): the failure mask and the new continuous state. All five tests run (R150, D31). -/
def fipsTest (C : Config) (B : List Byte) (last32 : Word32) : BitVec 5 × Word32 :=
  let s := seqBits C.scanOrder B
  let rs := runsOf s
  let r := crng C B last32
  (failureMask (monobit C.limits s) (poker C.limits s) (runsFail C.limits rs) (longRunFails C.limits rs) r.1, r.2)

end Sys2Proof.Machine
end

