-- ==== Sys2Proof/Machine/Accumulators.lean ====
section
/-! DEFINITION. The accumulators and the block lifecycle (R120-R131). -/

namespace Sys2Proof.Machine

/-- BLOCK_RESET() (R126). -/
def blockReset (s : State) : State := (s.withPos 0 0).withAcc []

/-- The completed block, ACC as a whole (R51, R125). -/
def completedBlock (s : State) : List Byte := s.acc.bytes blockBytes

/-- The middle of R125: discard by event, or one of the two conditioners. -/
def disposeBlock (C : Config) (B : List Byte) (mask : BitVec 5) (s : State) : State :=
  if mask ≠ 0 then s.logEvent .fipsFail mask
  else match s.mode with
    | .xor => xorCondition B s
    | .aes => aesCondition C B s

/-- BLOCK_COMPLETE() (R125, R160). -/
def blockComplete (C : Config) (s : State) : State :=
  let B := completedBlock s
  let r := fipsTest C B s.fipsLast32
  blockReset (disposeBlock C B r.1 (s.withVerdict r.2 r.1))

/-- The first two statements of OUTPUT_BIT (R120). -/
def appendBit (x : Bool) (s : State) : State :=
  (s.withAcc (s.acc.write s.bytecnt (orBit (s.acc.read s.bytecnt) s.bitcnt x))).withPos (s.bitcnt + 1) s.bytecnt

/-- BYTE_WRAP() (R121). -/
def byteWrap (s : State) : State := if s.bitcnt = 8 then s.withPos 0 (s.bytecnt + 1) else s

/-- COMPLETION_CHECK() (R124). -/
def completionCheck (C : Config) (s : State) : State :=
  if s.bytecnt = blockBytes then blockComplete C s else s

/-- OUTPUT_BIT(x) (R120). -/
def outputBit (C : Config) (x : Bool) (s : State) : State := completionCheck C (byteWrap (appendBit x s))

/-- REJECT_BIT(x) (R130, R131). -/
def rejectBit (C : Config) (x : Bool) (s : State) : State :=
  let t := C.packing s.hpos
  s.withHash (s.hbuf.write t.1 (putBit (s.hbuf.read t.1) t.2 x))
    (if s.hpos = 8 * C.hashBytes - 1 then 0 else s.hpos + 1)
    (s.hashReady || readyNow C s) (s.pushes + 1)

end Sys2Proof.Machine
end

