-- ==== Sys2Proof/Machine/Operands.lean ====
section
/-! DEFINITION. The operand of a pair step: the ordered pair `(x, y)` of a pair class (R71, R72). There is no other
operand form (R71). -/

namespace Sys2Proof.Machine

/-- `x`, the lower-numbered bit of the pair and the debiaser's operand (R71, R72). -/
def pairX : PairClass → Bool
  | .rej0 => false
  | .out1 => true
  | .out0 => false
  | .rej1 => true

/-- `y`, the higher-numbered bit of the pair (R71, R72). -/
def pairY : PairClass → Bool
  | .rej0 => false
  | .out1 => false
  | .out0 => true
  | .rej1 => true

/-- The output bits a sample with these classes appends, in ascending pair order (R108). -/
def outputBits (ps : List PairClass) : List Bool :=
  (ps.filter fun p => pairX p != pairY p).map pairX

/-- The rejected bits a sample with these classes pushes, in ascending pair order (R108). -/
def rejectedBits (ps : List PairClass) : List Bool :=
  (ps.filter fun p => pairX p == pairY p).map pairX

/-- The pair classes of a sample in the order they are run (R73, R106). -/
def sampleClasses (b : Byte) : List PairClass :=
  [.ofField (pairField b 0), .ofField (pairField b 1), .ofField (pairField b 2)]

/-- The pair classes an instruction runs, in order (R75). -/
def instrClasses : Instr → List PairClass
  | .sample p0 p1 p2 _ => [p0, p1, p2]
  | .vnRej0 => [.rej0]
  | .vnOut1 => [.out1]
  | .vnOut0 => [.out0]
  | .vnRej1 => [.rej1]

end Sys2Proof.Machine
end

