-- ==== Sys2Proof/Machine/Debias.lean ====
section
/-! DEFINITION. The bit extractor and the Von Neumann debiaser (R100-R105): one meaning per row of the opcode table.
An instruction always ends in a next state (R210). -/

namespace Sys2Proof.Machine

/-- PAIR(x, y) (R101). -/
def pairStep (C : Config) (x y : Bool) (s : State) : State :=
  if x ≠ y then outputBit C x s else rejectBit C x s

/-- VN_OUT1 (R102). -/
def vnOut1 (C : Config) (s : State) : State := outputBit C true s

/-- VN_OUT0 (R103). -/
def vnOut0 (C : Config) (s : State) : State := outputBit C false s

/-- VN_REJ0 (R104). -/
def vnRej0 (C : Config) (s : State) : State := rejectBit C false s

/-- VN_REJ1 (R105). -/
def vnRej1 (C : Config) (s : State) : State := rejectBit C true s

/-- The pair step of a class (R72, R101). -/
def runClass (C : Config) : PairClass → State → State
  | .rej0, s => vnRej0 C s
  | .out1, s => vnOut1 C s
  | .out0, s => vnOut0 C s
  | .rej1, s => vnRej1 C s

/-- The three pair steps of a sample in ascending order (R100, R106, R246). -/
def runSample (C : Config) (p0 p1 p2 : PairClass) (s : State) : State :=
  runClass C p2 (runClass C p1 (runClass C p0 s))

/-- The meaning of SAMPLE (R100); the IGN bits are not read (R73). -/
def execSample (p0 p1 p2 : PairClass) (s : State) : Host.Outcome State Fault Refusal :=
  .next (runSample specConfig p0 p1 p2 s)

/-- The meaning of VN_REJ0 (R104). -/
def execVnRej0 (s : State) : Host.Outcome State Fault Refusal := .next (vnRej0 specConfig s)

/-- The meaning of VN_OUT1 (R102). -/
def execVnOut1 (s : State) : Host.Outcome State Fault Refusal := .next (vnOut1 specConfig s)

/-- The meaning of VN_OUT0 (R103). -/
def execVnOut0 (s : State) : Host.Outcome State Fault Refusal := .next (vnOut0 specConfig s)

/-- The meaning of VN_REJ1 (R105). -/
def execVnRej1 (s : State) : Host.Outcome State Fault Refusal := .next (vnRej1 specConfig s)

end Sys2Proof.Machine
end

