-- ==== Sys2Proof/Machine/Dispatch.lean ====
section
/-! DEFINITION. The dispatch of instructions to their meanings. -/

namespace Sys2Proof.Machine

def exec (i : Instr) (s : State) : Host.Outcome State Fault Refusal :=
  match i with
  | .sample p0 p1 p2 _ => Sys2Proof.Machine.execSample p0 p1 p2 s
  | .vnRej0 => Sys2Proof.Machine.execVnRej0 s
  | .vnOut1 => Sys2Proof.Machine.execVnOut1 s
  | .vnOut0 => Sys2Proof.Machine.execVnOut0 s
  | .vnRej1 => Sys2Proof.Machine.execVnRej1 s

end Sys2Proof.Machine
end

