-- ==== Sys2Proof/Machine/Ports.lean ====
section
/-! DEFINITION. The host beside the core (R220-R229; out of the core's scope by R6, kept to drive its ports): the hold
while an emission is pending, chunks, reset, termination, the sink, and the refusals of R227. DESIGN CHOICEs of
arbitration are in log 9 to log 13. -/

namespace Sys2Proof.Machine

/-- Bytes of OUT that the sink has not accepted (R222, R248). -/
def State.pending (s : State) : Bool := decide (s.env.taken < s.out.length)

/-- The host side after its next port action has been used up. -/
def State.popPort (s : State) : State := s.withEnv { s.env with port := s.env.port.tail }

/-- The host side after the sink's next response has been used up. -/
def State.popSink (s : State) : State := s.withEnv { s.env with sink := s.env.sink.tail }

/-- The host side in another phase. What is left of a chunk is not presented in it: the host resumes from the next
chunk (R225) or not at all (R224). -/
def State.inPhase (s : State) (p : Phase) : State := s.withEnv { s.env with phase := p, chunk := [] }

/-- The sample that the core takes in this step: the host is running, no emission is pending (R220, R222, R248), and
there is a sample of the chunk in progress or a single one at the port. -/
def State.dueSample (s : State) : Option Byte :=
  match s.env.phase, s.pending with
  | .running, false =>
    match s.env.chunk, s.env.port with
    | b :: _, _ => some b
    | [], .present b :: _ => some b
    | [], _ => none
  | _, _ => none

/-- The host side after the due sample has been taken: it is never presented again (R60). -/
def State.takeSample (s : State) : State :=
  match s.env.chunk with
  | _ :: bs => s.withEnv { s.env with chunk := bs }
  | [] => s.popPort

/-- The host asserts reset: the core restarts (R240), a new run begins, and nothing is pending (R221). -/
def restart (C : Config) (m : Mode) (s : State) : State :=
  resetCore C m { s.env with phase := .running, chunk := [], port := s.env.port.tail, taken := 0 }

/-- A chunk read: a short one is fatal and presents nothing, the samples of a full one are presented in order (R220,
R225). -/
def chunkRead (len : Nat) (bytes : List Byte) (s : State) : State :=
  if bytes.length < len then s.popPort.inPhase (.terminated .error)
  else s.popPort.withEnv { s.popPort.env with chunk := bytes.take len }

/-- The sink's response to an offered emission (R222, R225); a response that only a closed sink gives is dropped. -/
def sinkResponse (a : SinkAct) (s : State) : State :=
  match a with
  | .accept n => s.popSink.withEnv { s.popSink.env with taken := min (s.env.taken + n) s.out.length }
  | .pipeError => (s.popSink.withEnv { s.popSink.env with taken := s.out.length }).inPhase .readerGone
  | .reopened => s.popSink
  | .reopenFailed => s.popSink

/-- A running host's next action at the ports, when no sample is due. While an emission is pending, a sample or a chunk
waits and the state stays as it is (R248). -/
def runningAct (C : Config) (s : State) : Host.Outcome State Fault Refusal :=
  match s.env.port with
  | [] => .next s
  | .present _ :: _ => .next s
  | .chunk len bytes :: _ => if s.pending then .next s else .next (chunkRead len bytes s)
  | .assertReset m :: _ => .next (restart C m s)
  | .terminate :: _ => .next (s.popPort.inPhase (.terminated .clean))
  | .failStartup :: _ => .refused .startupFailureInRun
  | .switchMode _ :: _ => .refused .modeChangeWithoutReset
  | .presentInside _ :: _ => .refused .operationInProgress
  | .resetInside _ :: _ => .refused .operationInProgress

/-- A termination of a host that is not running: before its first reset it exits cleanly, and one that has terminated
keeps its exit code (R226). -/
def terminateStopped (s : State) : State :=
  match s.env.phase with
  | .terminated _ => s
  | .notStarted | .running | .readerGone => s.inPhase (.terminated .clean)

/-- A host before its first reset or after a termination: only a reset starts a run (R221, R224, I15). -/
def stoppedAct (C : Config) (s : State) : Host.Outcome State Fault Refusal :=
  match s.env.port with
  | [] => .next s
  | .present _ :: _ => .refused .sampleBeforeReset
  | .chunk _ _ :: _ => .refused .sampleBeforeReset
  | .assertReset m :: _ => .next (restart C m s)
  | .terminate :: _ => .next (terminateStopped s.popPort)
  | .failStartup :: _ => .next (s.popPort.inPhase (.terminated .error))
  | .switchMode _ :: _ => .refused .modeChangeWithoutReset
  | .presentInside _ :: _ => .refused .operationInProgress
  | .resetInside _ :: _ => .refused .operationInProgress

/-- A host whose reader is gone: without daemon mode it terminates; in daemon mode it waits for the re-open, and only
a termination is acted on meanwhile (R225, R226). -/
def readerGoneAct (s : State) : Host.Outcome State Fault Refusal :=
  if s.env.daemon then
    match s.env.sink, s.env.port with
    | .reopened :: _, _ => .next (s.popSink.inPhase .running)
    | .reopenFailed :: _, _ => .next (s.popSink.inPhase (.terminated .error))
    | .accept _ :: _, _ => .next s.popSink
    | .pipeError :: _, _ => .next s.popSink
    | [], .terminate :: _ => .next (s.popPort.inPhase (.terminated .clean))
    | [], _ => .next s
  else .next (s.inPhase (.terminated .error))

/-- A step in which the core takes no sample. The sink answers an offered emission before the host acts at the ports. -/
def hostStep (C : Config) (s : State) : Host.Outcome State Fault Refusal :=
  match s.env.phase with
  | .running =>
    match s.pending, s.env.sink with
    | true, a :: _ => .next (sinkResponse a s)
    | _, _ => runningAct C s
  | .readerGone => readerGoneAct s
  | .notStarted => stoppedAct C s
  | .terminated _ => stoppedAct C s

end Sys2Proof.Machine
end

