-- ==== Sys2Proof/Machine/Step.lean ====
section
/-! DEFINITION. One step: the sample that is due is taken from the sample port, decoded and run whole (R4, R63, R220,
R246); otherwise the host beside the core acts. -/

namespace Sys2Proof.Machine

def step (s : State) : Host.Outcome State Fault Refusal :=
  match s.dueSample with
  | some b => exec (decodeWord (.s8 b)) s.takeSample
  | none => hostStep specConfig s

/-- The sample that carries a word: itself, or for a lone pair field the sample that has it as P0 and `00` in its other
pair fields, as R81 pads (log 8). -/
def carrier : InWord → Byte
  | .s8 b => b
  | .p2 p => p.setWidth 8

/-- The state with the sample that carries the word of `nbits` bits `w` as the next one the core takes: it comes first,
the host runs and nothing is pending. A word that is no word of the table changes nothing. -/
def State.withFetchWord (s : State) (nbits w : Nat) : State :=
  match tableWord nbits w with
  | .ok v =>
    s.withEnv { s.env with phase := .running, chunk := carrier v :: s.env.chunk, taken := s.out.length }
  | .error _ => s

end Sys2Proof.Machine
end

