-- ==== Sys2Proof/Safety.lean ====
section
/-! DEFINITION. What the claims are stated in: the invariants of the state (R40 and the rules derived from the
operations), runs of samples, the streams of R107 and R108, the reference for XOR-mode output (R123, R164, R184), and a
host that keeps its duties (R227). -/

namespace Sys2Proof.Machine

/-! ## Invariants -/

/-- R40 (a) and (d). -/
def State.InRange (s : State) : Prop := s.bitcnt ≤ 7 ∧ s.bytecnt < 2500 ∧ s.hpos < 20000

/-- The four storage arrays keep their canonical form: indices in the ranges of R50, strictly rising. -/
def State.Canonical (s : State) : Prop :=
  Mem.wf 2500 s.acc = true ∧ Mem.wf 2500 s.hbuf = true ∧ Mem.wf 2500 s.prev = true ∧ Mem.wf 64 s.keyreg = true

/-- R40 (b): every bit of ACC at or above the fill position is 0. -/
def State.ClearAbove (s : State) : Prop :=
  ∀ j k, k < 8 → 8 * s.bytecnt + s.bitcnt ≤ 8 * j + k → (s.acc.read j).getLsbD k = false

/-- R40 (e), R131, R132: HPOS and HASH_READY as the number of pushes since reset makes them. -/
def State.PushesAgree (s : State) : Prop :=
  s.hpos = s.pushes % 20000 ∧ s.hashReady = decide (20000 ≤ s.pushes)

/-- R40 (f): KEYREG is all zeros. -/
def State.KeyClear (s : State) : Prop := s.keyreg = []

/-- The invariant of R40. Its point (c) speaks of a run; see `outStream`. -/
structure State.Inv (s : State) : Prop where
  inRange   : s.InRange
  canonical : s.Canonical
  clear     : s.ClearAbove
  pushes    : s.PushesAgree
  key       : s.KeyClear

/-- How many events of a code are logged. -/
def eventCount (c : EventCode) (l : List Event) : Nat := l.countP fun e => e.code == c

/-- R183 in terms of the state: in XOR mode the accepted blocks are the retained and the emitted ones, HAVE_PREV says
whether there is one, PREV is zero before the first, and OUT has 2500 bytes for each but the first. -/
def State.XorLedger (s : State) : Prop :=
  s.mode = .xor →
    eventCount .emitAes s.evt = 0 ∧ eventCount .warmupDrop s.evt = 0 ∧
    eventCount .retain s.evt = (if s.havePrev then 1 else 0) ∧ (s.havePrev = false → s.prev = []) ∧
    (s.havePrev = false → eventCount .emitXor s.evt = 0) ∧
    s.out.length = 2500 * (eventCount .retain s.evt + eventCount .emitXor s.evt - 1)

/-- R200 and R201 in terms of the state: in AES mode PREV and HAVE_PREV keep their reset values, OUT has 2512 bytes
for each EV_EMIT_AES, and nothing is emitted before HASH_READY is 1. -/
def State.AesLedger (s : State) : Prop :=
  s.mode = .aes →
    s.prev = [] ∧ s.havePrev = false ∧ eventCount .retain s.evt = 0 ∧ eventCount .emitXor s.evt = 0 ∧
    s.out.length = 2512 * eventCount .emitAes s.evt ∧ (s.hashReady = false → s.out = [])

/-- R78: every record logged is well-formed. R222: no more bytes are taken than were emitted. -/
def State.PortsAgree (s : State) : Prop :=
  (∀ e ∈ s.evt, e.wellFormed = true) ∧ s.env.taken ≤ s.out.length

/-- The ledger of a run: what OUT, EVT, PREV and HAVE_PREV say about each other. -/
structure State.Ledger (s : State) : Prop where
  xor   : s.XorLedger
  aes   : s.AesLedger
  ports : s.PortsAgree

/-! ## Instructions and states that statements name -/

/-- The pair-class instruction of pair `k` of a sample. -/
def pairInstr (b : Byte) (k : Nat) : Instr := decodeWord (.p2 (b.extractLsb' (2 * k) 2))

/-- The instruction that appends the output bit `x`. -/
def outInstr (x : Bool) : Instr := if x then .vnOut1 else .vnOut0

/-- The instruction that pushes the rejected bit `x`. -/
def rejInstr (x : Bool) : Instr := if x then .vnRej1 else .vnRej0

/-- The next output bit is the last of its block (R124). -/
def State.AtLastBit (s : State) : Prop := s.bitcnt = 7 ∧ s.bytecnt = 2499

/-- The block that the output bit `x` completes: ACC with the bit appended, as a byte sequence (R120, R125). -/
def closingBlock (x : Bool) (s : State) : List Byte :=
  (s.acc.write s.bytecnt (orBit (s.acc.read s.bytecnt) s.bitcnt x)).bytes 2500

/-- The monitor's answer on that block. -/
def closingVerdict (x : Bool) (s : State) : BitVec 5 × Word32 :=
  fipsTest specConfig (closingBlock x s) s.fipsLast32

/-! ## Runs of samples -/

/-- The state after a sequence of samples, each run by exec (R220). -/
def afterSamples : List Byte → State → State
  | [], s => s
  | b :: bs, s =>
    match exec (decodeWord (.s8 b)) s with
    | .next t => afterSamples bs t
    | .fault _ => s
    | .refused _ => s

/-- All output bits of a sequence of samples, in order (R106, R108). -/
def outStream (bs : List Byte) : List Bool := bs.flatMap fun b => outputBits (sampleClasses b)

/-- All rejected bits of a sequence of samples, in order (R106, R108). -/
def rejStream (bs : List Byte) : List Bool := bs.flatMap fun b => rejectedBits (sampleClasses b)

/-! ## The reference for XOR mode -/

/-- Up to eight bits as a byte, the first one least significant (R54). -/
def packByte : List Bool → Byte
  | [] => 0
  | x :: xs => (packByte xs <<< 1) ||| bitByte x

/-- The first `n` bytes of a bit sequence (R54). -/
def packBytes : Nat → List Bool → List Byte
  | 0, _ => []
  | n + 1, xs => packByte (xs.take 8) :: packBytes n (xs.drop 8)

/-- The first `n` blocks of a bit sequence (R123). -/
def packBlocks : Nat → List Bool → List (List Byte)
  | 0, _ => []
  | n + 1, xs => packBytes 2500 xs :: packBlocks n (xs.drop 20000)

/-- All full blocks of a bit sequence; a partial block is none (R122, R123). -/
def fullBlocks (xs : List Bool) : List (List Byte) := packBlocks (xs.length / 20000) xs

/-- The blocks that pass the monitor, its continuous state rolling across all of them (R160, R164). -/
def acceptedBlocks : Word32 → List (List Byte) → List (List Byte)
  | _, [] => []
  | last, B :: Bs =>
    let r := fipsTest specConfig B last
    if r.1 = 0 then B :: acceptedBlocks r.2 Bs else acceptedBlocks r.2 Bs

/-- The monitor's continuous state after a list of blocks (R159, R160). -/
def rollWord : Word32 → List (List Byte) → Word32
  | last, [] => last
  | last, B :: Bs => rollWord (fipsTest specConfig B last).2 Bs

/-- Every accepted block after the first, XORed with the accepted block before it (R184). -/
def xorEmissions : List (List Byte) → List Byte
  | [] => []
  | [_] => []
  | A :: B :: Bs => xorBytes B A ++ xorEmissions (B :: Bs)

/-! ## A state against its history -/

/-- The accumulators against all output bits `outs` and all rejected bits `rejs` since reset: ACC and the counters hold
the output bits behind the last full block (R54, R107, R123), HBUF and HPOS the most recent 20000 rejected bits in
cyclic order (R55, R132). -/
structure State.Accumulates (s : State) (outs rejs : List Bool) : Prop where
  fill      : 20000 * s.evt.length + (8 * s.bytecnt + s.bitcnt) = outs.length
  bitcnt    : s.bitcnt ≤ 7
  bytecnt   : s.bytecnt < 2500
  pushes    : s.pushes = rejs.length
  hpos      : s.hpos = rejs.length % 20000
  hashReady : s.hashReady = decide (20000 ≤ rejs.length)
  accForm   : Mem.wf 2500 s.acc = true
  hbufForm  : Mem.wf 2500 s.hbuf = true
  accBits   : ∀ j k, k < 8 → 8 * j + k < 8 * s.bytecnt + s.bitcnt →
    outs[20000 * s.evt.length + (8 * j + k)]? = some ((s.acc.read j).getLsbD k)
  accClear  : s.ClearAbove
  hbufBits  : ∀ h, h < rejs.length → rejs.length ≤ h + 20000 →
    rejs[h]? = some ((s.hbuf.read (h % 20000 / 8)).getLsbD (h % 20000 % 8))

/-- XOR mode against all output bits since reset: the continuous state rolls over every block (R160), OUT is the
reference (R184), and PREV is the last accepted block (R181, R183). -/
structure State.EmitsXor (s : State) (outs : List Bool) : Prop where
  fipsLast32 : s.fipsLast32 = rollWord specSeed (fullBlocks outs)
  out        : s.out = xorEmissions (acceptedBlocks specSeed (fullBlocks outs))
  prev       : (acceptedBlocks specSeed (fullBlocks outs)).getLast? =
    if s.havePrev then some (s.prev.bytes 2500) else none

/-- What a state holds of its history. -/
structure State.Holds (s : State) (outs rejs : List Bool) : Prop where
  accumulates : s.Accumulates outs rejs
  emitsXor    : s.mode = .xor → s.EmitsXor outs

/-! ## A host that keeps its duties -/

/-- R227: samples only after a reset and before the end of the run, and nothing that a model must refuse. `run` says
whether a run is under way. -/
def dutifulPort : Bool → List HostAct → Bool
  | _, [] => true
  | run, .present _ :: l => run && dutifulPort run l
  | run, .chunk len bytes :: l => run && dutifulPort (decide (len ≤ bytes.length)) l
  | _, .assertReset _ :: l => dutifulPort true l
  | _, .terminate :: l => dutifulPort false l
  | run, .failStartup :: l => !run && dutifulPort false l
  | _, .switchMode _ :: _ => false
  | _, .presentInside _ :: _ => false
  | _, .resetInside _ :: _ => false

/-- A run is under way in the phases Running and ReaderGone (R226). -/
def Phase.underWay : Phase → Bool
  | .notStarted => false
  | .running => true
  | .readerGone => true
  | .terminated _ => false

/-- The host keeps its duties, and no failure of the sink ends the run under it. -/
def HostSide.dutiful (e : HostSide) : Bool :=
  dutifulPort e.phase.underWay e.port &&
    (if e.daemon then !e.sink.contains .reopenFailed else e.phase != .readerGone && !e.sink.contains .pipeError)

end Sys2Proof.Machine
end

