-- ==== Sys2Proof/Certificates/Slice0/Obligations.lean ====
section
/-! DEFINITION. The statements for the provers. R<n> are rules of spec/, log <n> is notes/assumptions/<n>.md. Every
statement holds for all states of the model, not only for reachable ones, unless a hypothesis says which. -/

open Sys2Proof Sys2Proof.Machine

/-! ## Encoding -/

/-- R70, R72, R75, R76, V-E4: words written out from the spec's tables decode to the instructions they stand for. -/
def Obligations.SpecWordsDecodeAsWritten : Prop :=
  decodeWord (.s8 0b00101010#8) = .sample .out0 .out0 .out0 0 ∧
  decodeWord (.s8 0b00111111#8) = .sample .rej1 .rej1 .rej1 0 ∧
  decodeWord (.s8 0b00010101#8) = .sample .out1 .out1 .out1 0 ∧
  decodeWord (.s8 0b11000110#8) = .sample .out0 .out1 .rej0 0b11 ∧
  decodeWord (.p2 0b00#2) = .vnRej0 ∧ decodeWord (.p2 0b01#2) = .vnOut1 ∧
  decodeWord (.p2 0b10#2) = .vnOut0 ∧ decodeWord (.p2 0b11#2) = .vnRej1

/-- R71: each pair field decodes to the pair of the sample's bits `2k` and `2k + 1`. -/
def Obligations.PairFieldsAreTheSampleBits : Prop :=
  ∀ b : Byte, ∃ p0 p1 p2 ign, decodeWord (.s8 b) = .sample p0 p1 p2 ign ∧
    pairX p0 = b.getLsbD 0 ∧ pairY p0 = b.getLsbD 1 ∧ pairX p1 = b.getLsbD 2 ∧ pairY p1 = b.getLsbD 3 ∧
    pairX p2 = b.getLsbD 4 ∧ pairY p2 = b.getLsbD 5

/-- R72: the value of a pair field selects the class, its `x` and `y`, and its effect. -/
def Obligations.PairFieldSelectsItsEffect : Prop :=
  (PairClass.ofField 0b00#2 = .rej0 ∧ pairX .rej0 = false ∧ pairY .rej0 = false) ∧
  (PairClass.ofField 0b01#2 = .out1 ∧ pairX .out1 = true ∧ pairY .out1 = false) ∧
  (PairClass.ofField 0b10#2 = .out0 ∧ pairX .out0 = false ∧ pairY .out0 = true) ∧
  (PairClass.ofField 0b11#2 = .rej1 ∧ pairX .rej1 = true ∧ pairY .rej1 = true) ∧
  ∀ s : State,
    exec (decodeWord (.p2 0b00#2)) s = .next (rejectBit specConfig false s) ∧
    exec (decodeWord (.p2 0b01#2)) s = .next (outputBit specConfig true s) ∧
    exec (decodeWord (.p2 0b10#2)) s = .next (outputBit specConfig false s) ∧
    exec (decodeWord (.p2 0b11#2)) s = .next (rejectBit specConfig true s)

/-- R70-R75: decoding and encoding are inverse, word by word in both formats and over whole chunks of samples. -/
def Obligations.DecodeAndEncodeAgree : Prop :=
  (∀ i : Instr, decodeWord (encode i) = i) ∧ (∀ w : InWord, encode (decodeWord w) = w) ∧
  (∀ is : List Instr, (∀ i ∈ is, ∃ p0 p1 p2 ign, i = .sample p0 p1 p2 ign) →
    decodeChunk (is.flatMap encodeBytes) = is) ∧
  (∀ bs : List Byte, (decodeChunk bs).flatMap encodeBytes = bs)

/-- R73: every byte is a sample, and samples that differ only in bits 7:6 change every state alike. -/
def Obligations.IgnoredBitsChangeNothing : Prop :=
  (∀ (b : Byte) (rest : List Byte), ∃ p0 p1 p2 ign, decodeBytes (b :: rest) = .ok (.sample p0 p1 p2 ign, rest)) ∧
  (∀ (b b' : Byte) (s : State), (∀ i, i < 6 → b.getLsbD i = b'.getLsbD i) →
    exec (decodeWord (.s8 b)) s = exec (decodeWord (.s8 b')) s)

/-- R78: the five codes, each with its value; an event record and its byte determine each other, and the codes 5 to 7 are
no records. -/
def Obligations.EventRecordsRoundTrip : Prop :=
  (EventCode.retain.bits = 0 ∧ EventCode.emitXor.bits = 1 ∧ EventCode.emitAes.bits = 2 ∧
    EventCode.fipsFail.bits = 3 ∧ EventCode.warmupDrop.bits = 4) ∧
  (∀ e : Event, Event.ofByte e.byte = some e ∧ e.byte.extractLsb' 0 3 = e.code.bits ∧
    e.byte.extractLsb' 3 5 = e.mask) ∧
  (∀ r : Byte, 5 ≤ (r.extractLsb' 0 3).toNat → Event.ofByte r = none) ∧
  (∀ (r : Byte) (e : Event), Event.ofByte r = some e → e.byte = r)

/-- R81: the samples of OSTREAM T carry exactly T as output bits, three a sample, and each unused pair field of the last
one pushes a rejected 0. -/
def Obligations.OstreamCarriesItsBits : Prop :=
  ∀ T : List Bool, outStream (ostream T) = T ∧ (ostream T).length = (T.length + 2) / 3 ∧
    rejStream (ostream T) = List.replicate (3 * (ostream T).length - T.length) false

/-! ## The instructions -/

/-- R101: every class runs the Von Neumann step on its pair. -/
def Obligations.ClassesRunTheVonNeumannStep : Prop :=
  ∀ (p : PairClass) (s : State),
    exec (.ofClass p) s =
      if pairX p ≠ pairY p then .next (outputBit specConfig (pairX p) s)
      else .next (rejectBit specConfig (pairX p) s)

/-- R100, R246: SAMPLE answers the state that its three pair instructions, in ascending order, lead to. -/
def Obligations.SampleRunsItsPairsInOrder : Prop :=
  ∀ (b : Byte) (s : State), ∃ s1 s2 s3,
    exec (pairInstr b 0) s = .next s1 ∧ exec (pairInstr b 1) s1 = .next s2 ∧ exec (pairInstr b 2) s2 = .next s3 ∧
    exec (decodeWord (.s8 b)) s = .next s3

/-- R100, R108, R120, R121, R130: a SAMPLE that completes no block, on the bits of its byte: what it appends, what it
pushes, and its frame. -/
def Obligations.SampleAppendsAndPushesItsBits : Prop :=
  ∀ (b : Byte) (s : State), Mem.wf 2500 s.acc = true → Mem.wf 2500 s.hbuf = true → s.bitcnt ≤ 7 → s.hpos < 20000 →
    let unequal (k : Nat) : Bool := b.getLsbD (2 * k) != b.getLsbD (2 * k + 1)
    let outs : List Bool := ([0, 1, 2].filter unequal).map fun k => b.getLsbD (2 * k)
    let rejs : List Bool := ([0, 1, 2].filter fun k => !unequal k).map fun k => b.getLsbD (2 * k)
    8 * s.bytecnt + s.bitcnt + outs.length < 20000 →
    ∃ t, exec (decodeWord (.s8 b)) s = .next t ∧
      t.bitcnt ≤ 7 ∧ 8 * t.bytecnt + t.bitcnt = 8 * s.bytecnt + s.bitcnt + outs.length ∧
      t.hpos = (s.hpos + rejs.length) % 20000 ∧
      t.hashReady = (s.hashReady || decide (20000 ≤ s.hpos + rejs.length)) ∧
      (∀ j k, k < 8 → (t.acc.read j).getLsbD k =
        ((s.acc.read j).getLsbD k ||
          (decide (8 * s.bytecnt + s.bitcnt ≤ 8 * j + k) && outs.getD (8 * j + k - (8 * s.bytecnt + s.bitcnt)) false))) ∧
      (∀ j k, k < 8 → (t.hbuf.read j).getLsbD k =
        if 8 * j + k < 20000 then (rejs[(8 * j + k + 20000 - s.hpos) % 20000]?).getD ((s.hbuf.read j).getLsbD k)
        else (s.hbuf.read j).getLsbD k) ∧
      t.mode = s.mode ∧ t.prev = s.prev ∧ t.havePrev = s.havePrev ∧ t.fipsLast32 = s.fipsLast32 ∧
      t.lastMask = s.lastMask ∧ t.keyreg = s.keyreg ∧ t.out = s.out ∧ t.evt = s.evt ∧ t.env = s.env

/-- R102, R120, R121: VN_OUT1 in a block that it does not complete. The whole next state, so the frame with it. -/
def Obligations.VnOut1AppendsAOne : Prop :=
  ∀ s : State, s.bytecnt < 2500 → ¬ s.AtLastBit →
    exec .vnOut1 s = .next { s with
      acc := s.acc.write s.bytecnt (s.acc.read s.bytecnt ||| (1#8 <<< s.bitcnt))
      bitcnt := if s.bitcnt = 7 then 0 else s.bitcnt + 1
      bytecnt := if s.bitcnt = 7 then s.bytecnt + 1 else s.bytecnt }

/-- R103, R120, R121: VN_OUT0 in a block that it does not complete: only the counters change. -/
def Obligations.VnOut0OnlyAdvancesTheCounters : Prop :=
  ∀ s : State, Mem.wf 2500 s.acc = true → s.bytecnt < 2500 → ¬ s.AtLastBit →
    exec .vnOut0 s = .next { s with
      bitcnt := if s.bitcnt = 7 then 0 else s.bitcnt + 1
      bytecnt := if s.bitcnt = 7 then s.bytecnt + 1 else s.bytecnt }

/-- R104, R130, R131: VN_REJ0. The push counter is the model's own (log 14). -/
def Obligations.VnRej0ClearsItsBit : Prop :=
  ∀ s : State, exec .vnRej0 s = .next { s with
    hbuf := s.hbuf.write (s.hpos / 8) (s.hbuf.read (s.hpos / 8) &&& ~~~(1#8 <<< (s.hpos % 8)))
    hpos := if s.hpos = 19999 then 0 else s.hpos + 1
    hashReady := s.hashReady || decide (s.hpos = 19999)
    pushes := s.pushes + 1 }

/-- R105, R130, R131: VN_REJ1. The push counter is the model's own (log 14). -/
def Obligations.VnRej1SetsItsBit : Prop :=
  ∀ s : State, exec .vnRej1 s = .next { s with
    hbuf := s.hbuf.write (s.hpos / 8)
      ((s.hbuf.read (s.hpos / 8) &&& ~~~(1#8 <<< (s.hpos % 8))) ||| (1#8 <<< (s.hpos % 8)))
    hpos := if s.hpos = 19999 then 0 else s.hpos + 1
    hashReady := s.hashReady || decide (s.hpos = 19999)
    pushes := s.pushes + 1 }

/-- R51: an appended bit lands at its position, ORed in, and no other bit of ACC changes. -/
def Obligations.AppendChangesOneBitOfAcc : Prop :=
  ∀ (x : Bool) (s : State), Mem.wf 2500 s.acc = true → s.bitcnt ≤ 7 → s.bytecnt < 2500 → ¬ s.AtLastBit →
    ∃ t, exec (outInstr x) s = .next t ∧
      ∀ j k, k < 8 → (t.acc.read j).getLsbD k =
        ((s.acc.read j).getLsbD k || (decide (8 * j + k = 8 * s.bytecnt + s.bitcnt) && x))

/-- R52: a push puts its value into bit `HPOS & 7` of byte `HPOS >> 3`, whatever was there, and changes no other bit of
HBUF. -/
def Obligations.PushChangesOneBitOfHbuf : Prop :=
  ∀ (x : Bool) (s : State), Mem.wf 2500 s.hbuf = true →
    ∃ t, exec (rejInstr x) s = .next t ∧
      ∀ j k, k < 8 → (t.hbuf.read j).getLsbD k =
        if 8 * j + k = s.hpos then x else (s.hbuf.read j).getLsbD k

/-- R210, R241: every instruction answers a next state, from any state, and none writes MODE or acts on the host. -/
def Obligations.EveryInstructionCompletes : Prop :=
  ∀ (i : Instr) (s : State), ∃ t, exec i s = .next t ∧ t.mode = s.mode ∧ t.env = s.env

/-! ## A block completion -/

/-- R125, R126, R128, R160: whatever the verdict, the output bit that fills the block leaves ACC and the counters
reset, FIPS_LAST32 and LAST_MASK from the test, exactly one more event (R78), and the rejected-bit accumulator as it was;
that the push counter does not change is about the model's own field (log 14). -/
def Obligations.CompletionResetsTheAccumulator : Prop :=
  ∀ (x : Bool) (s : State), s.AtLastBit →
    ∃ t, exec (outInstr x) s = .next t ∧ t.acc = [] ∧ t.bitcnt = 0 ∧ t.bytecnt = 0 ∧
      t.lastMask = (closingVerdict x s).1 ∧ t.fipsLast32 = (closingVerdict x s).2 ∧
      (∃ e, t.evt = s.evt ++ [e]) ∧
      t.hbuf = s.hbuf ∧ t.hpos = s.hpos ∧ t.hashReady = s.hashReady ∧ t.pushes = s.pushes

/-- R127, R163, R214: a failed block changes only FIPS_LAST32, LAST_MASK, one event and the accumulator, in either mode
and whether or not HASH_READY is 1. -/
def Obligations.FailedBlockIsDiscarded : Prop :=
  ∀ (x : Bool) (s : State), s.AtLastBit → (closingVerdict x s).1 ≠ 0 →
    exec (outInstr x) s = .next { s with
      acc := [], bitcnt := 0, bytecnt := 0
      fipsLast32 := (closingVerdict x s).2
      lastMask := (closingVerdict x s).1
      evt := s.evt ++ [{ code := .fipsFail, mask := (closingVerdict x s).1 }] }

/-- R181 with `n = 1`: the first accepted block in XOR mode is stored and not emitted. -/
def Obligations.FirstAcceptedBlockIsRetained : Prop :=
  ∀ (x : Bool) (s : State), s.AtLastBit → (closingVerdict x s).1 = 0 → s.mode = .xor → s.havePrev = false →
    exec (outInstr x) s = .next { s with
      acc := [], bitcnt := 0, bytecnt := 0
      fipsLast32 := (closingVerdict x s).2
      lastMask := 0
      prev := Mem.ofBytes (closingBlock x s)
      havePrev := true
      evt := s.evt ++ [{ code := .retain, mask := 0 }] }

/-- R181 with `n ≥ 2`, R182: a later accepted block in XOR mode is emitted XORed with PREV, 2500 bytes in index order,
and becomes PREV. -/
def Obligations.LaterAcceptedBlockIsXored : Prop :=
  ∀ (x : Bool) (s : State), s.AtLastBit → (closingVerdict x s).1 = 0 → s.mode = .xor → s.havePrev = true →
    ∃ E : List Byte, E.length = 2500 ∧
      (∀ j, j < 2500 → E.getD j 0 = (closingBlock x s).getD j 0 ^^^ s.prev.read j) ∧
      exec (outInstr x) s = .next { s with
        acc := [], bitcnt := 0, bytecnt := 0
        fipsLast32 := (closingVerdict x s).2
        lastMask := 0
        prev := Mem.ofBytes (closingBlock x s)
        havePrev := true
        out := s.out ++ E
        evt := s.evt ++ [{ code := .emitXor, mask := 0 }] }

/-- R190: an accepted block in AES mode before HASH_READY is dropped: one event and the accumulator reset. -/
def Obligations.WarmupBlockIsDropped : Prop :=
  ∀ (x : Bool) (s : State), s.AtLastBit → (closingVerdict x s).1 = 0 → s.mode = .aes → s.hashReady = false →
    exec (outInstr x) s = .next { s with
      acc := [], bitcnt := 0, bytecnt := 0
      fipsLast32 := (closingVerdict x s).2
      lastMask := 0
      evt := s.evt ++ [{ code := .warmupDrop, mask := 0 }] }

/-- R191, R192, R195-R199: an accepted block in AES mode with HASH_READY leaves as the CBC encryption of the block and
twelve bytes 0x0C, under the key in bytes 0-15 and the IV in bytes 16-31 of the SHA-512 of all of HBUF as it stands
before the rest of the sample; KEYREG is zero afterwards. SHA-512 and AES-128 are log 3. -/
def Obligations.AcceptedBlockIsEncrypted : Prop :=
  ∀ (x : Bool) (s : State), s.AtLastBit → (closingVerdict x s).1 = 0 → s.mode = .aes → s.hashReady = true →
    ∃ key iv : Block16,
      key.toList = (sha512 (s.hbuf.bytes 2500)).toList.take 16 ∧
      iv.toList = ((sha512 (s.hbuf.bytes 2500)).toList.drop 16).take 16 ∧
      exec (outInstr x) s = .next { s with
        acc := [], bitcnt := 0, bytecnt := 0
        fipsLast32 := (closingVerdict x s).2
        lastMask := 0
        keyreg := []
        out := s.out ++ cbcEnc specConfig key iv (closingBlock x s ++ List.replicate 12 0x0C#8)
        evt := s.evt ++ [{ code := .emitAes, mask := 0 }] }

/-- R59, R100, R182, R198: a sample completes at most one block, and what it emits is nothing, one group of 2500 bytes
(only in XOR mode) or one group of 2512 bytes (only in AES mode), behind what was emitted before. -/
def Obligations.SampleEmitsAtMostOneGroup : Prop :=
  ∀ (b : Byte) (s : State), s.bitcnt ≤ 7 → s.bytecnt < 2500 →
    ∃ t g l, exec (decodeWord (.s8 b)) s = .next t ∧ t.out = s.out ++ g ∧ t.evt = s.evt ++ l ∧ l.length ≤ 1 ∧
      (g = [] ∨ s.mode = .xor ∧ g.length = 2500 ∧ l = [{ code := .emitXor, mask := 0 }] ∨
        s.mode = .aes ∧ g.length = 2512 ∧ l = [{ code := .emitAes, mask := 0 }])

/-! ## The monitor -/

/-- R77, R150: the five result bits of the mask, and the new continuous state. -/
def Obligations.MaskHoldsTheFiveVerdicts : Prop :=
  ∀ (B : List Byte) (last : Word32),
    (fipsTest specConfig B last).1.getLsbD 0 = monobit specLimits (seqBits .lsbFirst B) ∧
    (fipsTest specConfig B last).1.getLsbD 1 = poker specLimits (seqBits .lsbFirst B) ∧
    (fipsTest specConfig B last).1.getLsbD 2 = runsFail specLimits (runsOf (seqBits .lsbFirst B)) ∧
    (fipsTest specConfig B last).1.getLsbD 3 = longRunFails specLimits (runsOf (seqBits .lsbFirst B)) ∧
    (fipsTest specConfig B last).1.getLsbD 4 = (crng specConfig B last).1 ∧
    (fipsTest specConfig B last).2 = (crng specConfig B last).2

/-- R151: bit `8j + k` of the test sequence is bit `k` of byte `j`, or bit `7 - k` under MSB_FIRST. -/
def Obligations.SequenceScansTheBlock : Prop :=
  ∀ (B : List Byte) (j k : Nat), j < B.length → k < 8 →
    (seqBits .lsbFirst B).length = 8 * B.length ∧ (seqBits .msbFirst B).length = 8 * B.length ∧
    (seqBits .lsbFirst B)[8 * j + k]? = some ((B.getD j 0).getLsbD k) ∧
    (seqBits .msbFirst B)[8 * j + k]? = some ((B.getD j 0).getLsbD (7 - k))

/-- R152, R153: the verdicts of monobit and poker on their statistics, and the poker statistic itself: of a sequence of
`4n` bits, the sum of the squares of how many of its `n` segments have each 4-bit value, the first bit most significant.
The limits are the spec's own from general knowledge (log 2). -/
def Obligations.MonobitAndPokerIntervals : Prop :=
  ∀ s : List Bool,
    (monobit specLimits s = false ↔ 9726 ≤ s.count true ∧ s.count true ≤ 10274) ∧
    (poker specLimits s = false ↔ 1563176 ≤ pokerSum s ∧ pokerSum s ≤ 1576928) ∧
    (∀ n, s.length = 4 * n →
      let bit (m : Nat) : Nat := (s.getD m false).toNat
      let count (i : Nat) : Nat := (List.range n).countP fun m =>
        8 * bit (4 * m) + 4 * bit (4 * m + 1) + 2 * bit (4 * m + 2) + bit (4 * m + 3) == i
      pokerSum s = ((List.range 16).map fun i => count i ^ 2).sum)

/-- R152, R153: neither statistic depends on FIPS_SCAN_ORDER. -/
def Obligations.MonobitAndPokerIgnoreScanOrder : Prop :=
  ∀ B : List Byte, ones (seqBits .msbFirst B) = ones (seqBits .lsbFirst B) ∧
    pokerSum (seqBits .msbFirst B) = pokerSum (seqBits .lsbFirst B)

/-- R153: over 20000 bits the poker sum lies between 1562504 and 25000000, and at the smallest value the test fails. -/
def Obligations.PokerSumBounds : Prop :=
  (∀ s : List Bool, s.length = 20000 → 1562504 ≤ pokerSum s ∧ pokerSum s ≤ 25000000) ∧
  pokerFails specLimits 1562504 = true ∧ pokerFails specLimits 25000000 = true

/-- R154: the runs of a sequence spell it out, each has at least one bit, and neighbours differ in value, so each is
maximal. -/
def Obligations.RunsAreTheMaximalRuns : Prop :=
  ∀ s : List Bool,
    (runsOf s).flatMap (fun r => List.replicate r.2 r.1) = s ∧
    (∀ r ∈ runsOf s, 1 ≤ r.2) ∧
    (∀ i, i + 1 < (runsOf s).length → ((runsOf s).map Prod.fst)[i]? ≠ ((runsOf s).map Prod.fst)[i + 1]?) ∧
    ((runsOf s).map Prod.snd).sum = s.length

/-- R155, R156: the runs test passes iff all twelve counters lie in their intervals, both ends included; class 6 counts
the runs of six or more. The limits are the spec's own from general knowledge (log 2). -/
def Obligations.RunsTestChecksTwelveIntervals : Prop :=
  ∀ rs : List (Bool × Nat),
    let cnt (v : Bool) (c : Nat) : Nat := rs.countP fun r => r.1 == v && r.2 == c
    let long (v : Bool) : Nat := rs.countP fun r => r.1 == v && decide (6 ≤ r.2)
    (runsFail specLimits rs = false ↔ ∀ v : Bool,
      (2315 ≤ cnt v 1 ∧ cnt v 1 ≤ 2685) ∧ (1114 ≤ cnt v 2 ∧ cnt v 2 ≤ 1386) ∧
      (527 ≤ cnt v 3 ∧ cnt v 3 ≤ 723) ∧ (240 ≤ cnt v 4 ∧ cnt v 4 ≤ 384) ∧
      (103 ≤ cnt v 5 ∧ cnt v 5 ≤ 209) ∧ (103 ≤ long v ∧ long v ≤ 209))

/-- R157: the long-run test fails iff 26 neighbouring bits of the sequence are equal. -/
def Obligations.LongRunIsTwentySixEqualBits : Prop :=
  ∀ s : List Bool, longRunFails specLimits (runsOf s) = true ↔
    ∃ (i : Nat) (v : Bool), i + 26 ≤ s.length ∧ ∀ j, j < 26 → s[i + j]? = some v

/-- R57, R158, R159: a block has 625 words, byte `4t + i` being bits `8i` to `8i + 7` of word `t`; the continuous-run test
fails iff one word equals the word before it, word 0 being compared with `last`; the new state is word 624. -/
def Obligations.ContinuousRunComparesNeighbours : Prop :=
  ∀ (B : List Byte) (last : Word32), B.length = 2500 →
    ∃ w : Nat → Word32,
      (∀ t i k, t < 625 → i < 4 → k < 8 → (w t).getLsbD (8 * i + k) = (B.getD (4 * t + i) 0).getLsbD k) ∧
      ((crng specConfig B last).1 = true ↔ w 0 = last ∨ ∃ t, t < 624 ∧ w (t + 1) = w t) ∧
      (crng specConfig B last).2 = w 624

/-! ## Padding and chaining -/

/-- R196: PKCS#7 padding. -/
def Obligations.PaddingIsPkcs7 : Prop :=
  ∀ m : List Byte,
    (∃ p, 1 ≤ p ∧ p ≤ 16 ∧ p = 16 - m.length % 16 ∧ pkcs7 m = m ++ List.replicate p (BitVec.ofNat 8 p)) ∧
    (pkcs7 m).length % 16 = 0 ∧
    (m.length = 2500 → pkcs7 m = m ++ List.replicate 12 0x0C#8 ∧ (pkcs7 m).length = 2512)

/-- R197: cipher-block chaining: every ciphertext block is the encryption of its plaintext block XORed with the
ciphertext block before it, the first one with the IV. -/
def Obligations.CbcChainsItsBlocks : Prop :=
  ∀ (key iv : Block16) (N : Nat) (P : List Byte), P.length = 16 * N →
    ∃ c : Nat → Block16,
      cbcEnc specConfig key iv P = (List.range N).flatMap (fun i => (c i).toList) ∧
      (0 < N → c 0 = aes128 key (toBlock16 (xorBytes (P.take 16) iv.toList))) ∧
      (∀ i, i + 1 < N → c (i + 1) =
        aes128 key (toBlock16 (xorBytes ((P.drop (16 * (i + 1))).take 16) (c i).toList)))

/-! ## Streams -/

/-- R107: from reset in either mode, output bits and rejected bits together are three a sample; the output bits are
those counted by the events, BYTECNT and BITCNT (R40 (c)), the rejected ones those of the push counter (log 14). -/
def Obligations.ThreeBitsPerSample : Prop :=
  ∀ (bs : List Byte) (m : Mode) (e : HostSide),
    let t := afterSamples bs (State.afterReset specConfig m e)
    20000 * t.evt.length + (8 * t.bytecnt + t.bitcnt) = (outStream bs).length ∧
    t.pushes = (rejStream bs).length ∧ (outStream bs).length + (rejStream bs).length = 3 * bs.length

/-- R54, R123: bit `k` of byte `j` of ACC is output bit `8j + k` of the current block. -/
def Obligations.AccHoldsTheCurrentBlock : Prop :=
  ∀ (bs : List Byte) (m : Mode) (e : HostSide),
    let t := afterSamples bs (State.afterReset specConfig m e)
    ∀ j k, k < 8 → 8 * j + k < 8 * t.bytecnt + t.bitcnt →
      (outStream bs)[20000 * t.evt.length + (8 * j + k)]? = some ((t.acc.read j).getLsbD k)

/-- R132: HBUF holds the most recent 20000 rejected bits, number `h` since reset at position `h` modulo 20000, and HPOS is
the position after the last of them. -/
def Obligations.HbufHoldsTheLatestRejectedBits : Prop :=
  ∀ (bs : List Byte) (m : Mode) (e : HostSide),
    let t := afterSamples bs (State.afterReset specConfig m e)
    t.hpos = (rejStream bs).length % 20000 ∧
    ∀ h, h < (rejStream bs).length → (rejStream bs).length ≤ h + 20000 →
      (rejStream bs)[h]? = some ((t.hbuf.read (h % 20000 / 8)).getLsbD (h % 20000 % 8))

/-- R123, R160, R164, R183, R184: the whole of XOR mode. After any samples from reset, OUT is the accepted blocks of the
output-bit stream, each XORed with the accepted one before it, across any failed ones. -/
def Obligations.XorModeEmitsNeighbouringAcceptedBlocks : Prop :=
  ∀ (bs : List Byte) (e : HostSide),
    (afterSamples bs (State.afterReset specConfig .xor e)).out =
      xorEmissions (acceptedBlocks specSeed (fullBlocks (outStream bs)))

/-- R54, R55, R107, R108, R123, R132, R160, R181, R184, step by step: if a state holds the history of output bits `outs`
and rejected bits `rejs` (ACC and the counters, HBUF and HPOS, and in XOR mode FIPS_LAST32, OUT, PREV and HAVE_PREV), then
SAMPLE leads to a state that holds this history with the sample's bits appended. `Holds` has a clause on the push counter,
the model's own (log 14). -/
def Obligations.SampleExtendsTheHistory : Prop :=
  ∀ (b : Byte) (s : State) (outs rejs : List Bool), s.Holds outs rejs →
    ∃ t, exec (decodeWord (.s8 b)) s = .next t ∧ t.Holds (outs ++ outStream [b]) (rejs ++ rejStream [b])

/-! ## What does not depend on what -/

/-- R66, R109: the extractor, the debiaser, both accumulators and the monitor behave the same in both modes and whatever
PREV, HAVE_PREV, KEYREG, OUT and EVT hold. -/
def Obligations.ExtractionIgnoresTheMode : Prop :=
  ∀ (i : Instr) (s t s' t' : State),
    (s.acc = t.acc ∧ s.bitcnt = t.bitcnt ∧ s.bytecnt = t.bytecnt ∧ s.hbuf = t.hbuf ∧ s.hpos = t.hpos ∧
      s.hashReady = t.hashReady ∧ s.fipsLast32 = t.fipsLast32 ∧ s.lastMask = t.lastMask ∧ s.pushes = t.pushes) →
    exec i s = .next s' → exec i t = .next t' →
    (s'.acc = t'.acc ∧ s'.bitcnt = t'.bitcnt ∧ s'.bytecnt = t'.bytecnt ∧ s'.hbuf = t'.hbuf ∧ s'.hpos = t'.hpos ∧
      s'.hashReady = t'.hashReady ∧ s'.fipsLast32 = t'.fipsLast32 ∧ s'.lastMask = t'.lastMask ∧
      s'.pushes = t'.pushes)

/-- R186: in XOR mode nothing of MODE, ACC, the counters, PREV, HAVE_PREV, the monitor, OUT and EVT depends on HBUF, HPOS,
HASH_READY and KEYREG; no key is derived (KEYREG is not written) and no block is dropped for warm-up. -/
def Obligations.XorModeIgnoresTheHashBuffer : Prop :=
  ∀ (i : Instr) (s t s' t' : State), s.mode = .xor →
    (∃ hb hp hr kr n, t = { s with hbuf := hb, hpos := hp, hashReady := hr, keyreg := kr, pushes := n }) →
    exec i s = .next s' → exec i t = .next t' →
    (s'.mode = t'.mode ∧ s'.acc = t'.acc ∧ s'.bitcnt = t'.bitcnt ∧ s'.bytecnt = t'.bytecnt ∧ s'.prev = t'.prev ∧
      s'.havePrev = t'.havePrev ∧ s'.fipsLast32 = t'.fipsLast32 ∧ s'.lastMask = t'.lastMask ∧ s'.out = t'.out ∧
      s'.evt = t'.evt ∧ s'.keyreg = s.keyreg ∧ t'.keyreg = t.keyreg) ∧
    eventCount .warmupDrop s'.evt = eventCount .warmupDrop s.evt

/-- R200: AES mode neither reads nor writes PREV and HAVE_PREV. -/
def Obligations.AesModeIgnoresThePreviousBlock : Prop :=
  ∀ (i : Instr) (s s' : State) (pv : Mem) (hp : Bool), s.mode = .aes → exec i s = .next s' →
    s'.prev = s.prev ∧ s'.havePrev = s.havePrev ∧
    exec i { s with prev := pv, havePrev := hp } = .next { s' with prev := pv, havePrev := hp }

/-! ## Reset -/

/-- R13, R240: the state after reset, in the default mode. The host side and the push counter are the model's own
(log 9, log 14); FIPS_SEED is D13. -/
def Obligations.ResetStateIsAsWritten : Prop :=
  State.reset.mode = .xor ∧ State.reset.acc = [] ∧ State.reset.bitcnt = 0 ∧ State.reset.bytecnt = 0 ∧
  State.reset.hbuf = [] ∧ State.reset.hpos = 0 ∧ State.reset.hashReady = false ∧ State.reset.prev = [] ∧
  State.reset.havePrev = false ∧ State.reset.fipsLast32 = 0x00000000#32 ∧ State.reset.lastMask = 0 ∧
  State.reset.keyreg = [] ∧ State.reset.out = [] ∧ State.reset.evt = [] ∧
  (∀ j, State.reset.acc.read j = 0 ∧ State.reset.hbuf.read j = 0 ∧ State.reset.prev.read j = 0 ∧
    State.reset.keyreg.read j = 0)

/-- R240, R221: a reset asserted by the host leaves the core in its start state with MODE latched, whatever it was
before, unless the sink still answers an offered emission or a chunk is still being presented (log 9, log 22). -/
def Obligations.AssertedResetRestartsTheCore : Prop :=
  ∀ (s : State) (m : Mode) (rest : List HostAct),
    s.env.port = .assertReset m :: rest → s.env.phase ≠ .readerGone →
    (s.env.phase = .running → s.pending = true → s.env.sink = []) →
    (s.env.phase = .running → s.pending = false → s.env.chunk = []) →
    step s = .next {
      mode := m, acc := [], bitcnt := 0, bytecnt := 0, hbuf := [], hpos := 0, hashReady := false, prev := [],
      havePrev := false, fipsLast32 := 0, lastMask := 0, keyreg := [], out := [], evt := [], pushes := 0,
      env := { s.env with phase := .running, chunk := [], port := rest, taken := 0 } }

/-- R21, R240, R241: MODE changes in no step but one that takes an asserted reset, which latches its cfg_mode. -/
def Obligations.ModeChangesOnlyAtReset : Prop :=
  ∀ s t : State, step s = .next t →
    t.mode = s.mode ∨ ∃ m rest, s.env.port = .assertReset m :: rest ∧ t.mode = m ∧ t.env.port = rest

/-- R27, R131: HASH_READY, once 1, is cleared by no step but an asserted reset. -/
def Obligations.HashReadyIsSticky : Prop :=
  ∀ s t : State, step s = .next t → s.hashReady = true →
    t.hashReady = true ∨ ∃ m rest, s.env.port = .assertReset m :: rest ∧ t.env.port = rest

/-! ## The host interface -/

/-- R63, R220, R246: the next sample presented to a running core with nothing pending is taken from the port, decoded and
run whole by one step. Samples of a chunk in progress come before what is at the port (log 9). -/
def Obligations.StepRunsTheDecodedWord : Prop :=
  ∀ (s : State) (b : Byte), s.env.phase = .running → s.out.length ≤ s.env.taken →
    (∀ bs, s.env.chunk = b :: bs →
      step s = exec (decodeWord (.s8 b)) { s with env := { s.env with chunk := bs } } ∧ ∃ t, step s = .next t) ∧
    (∀ rest, s.env.chunk = [] → s.env.port = .present b :: rest →
      step s = exec (decodeWord (.s8 b)) { s with env := { s.env with port := rest } } ∧ ∃ t, step s = .next t)

/-- R222, R227, R248: while an emission is pending and the sink takes nothing, a sample or a chunk at the port and the
samples of a chunk in progress wait, and the state stays as it is. -/
def Obligations.PendingEmissionHoldsTheNextSample : Prop :=
  ∀ s : State, s.env.phase = .running → s.env.taken < s.out.length → s.env.sink = [] →
    (s.env.port = [] ∨ (∃ b rest, s.env.port = .present b :: rest) ∨
      ∃ n bs rest, s.env.port = .chunk n bs :: rest) →
    step s = .next s

/-- R222, R248: the sink lifts the hold by accepting: bytes leave in order, none is dropped, and the core's state and the
port stay as they are. -/
def Obligations.SinkAcceptanceAdvancesTheOutput : Prop :=
  ∀ (s : State) (n : Nat) (rest : List SinkAct),
    s.env.phase = .running → s.env.taken < s.out.length → s.env.sink = .accept n :: rest →
    step s = .next { s with env := { s.env with sink := rest, taken := min (s.env.taken + n) s.out.length } }

/-- R220, R229: with no sample at hand, or with an emission pending that the sink does not take, a host that does nothing
leaves the core waiting, and all state is kept. -/
def Obligations.IdleCoreKeepsItsState : Prop :=
  ∀ s : State, s.env.phase = .running → s.env.port = [] →
    (s.env.chunk = [] ∧ s.out.length ≤ s.env.taken) ∨ (s.env.taken < s.out.length ∧ s.env.sink = []) →
    step s = .next s

/-- R220, R225: the samples of a full chunk are the next ones presented, in order, and a short read ends the run with an
error and presents none of its samples. -/
def Obligations.ChunksAreTheirSamples : Prop :=
  ∀ (s : State) (len : Nat) (bytes : List Byte) (rest : List HostAct),
    s.env.phase = .running → s.out.length ≤ s.env.taken → s.env.chunk = [] →
    s.env.port = .chunk len bytes :: rest →
    (bytes.length = len → step s = .next { s with env := { s.env with port := rest, chunk := bytes } }) ∧
    (bytes.length < len →
      step s = .next { s with env := { s.env with port := rest, phase := .terminated .error } })

/-- R122, R224, R226, R251: in every phase a termination ends the run with exit code 0 and emits nothing. While the host
runs, the chunk in progress is presented first, unless an emission holds it, and the sink answers first; while the reader
is gone, the daemon's sink answers first (log 9). A host that has already terminated keeps its exit code, and that every
other element of the core is as before is the model's choice (log 12). -/
def Obligations.TerminationFlushesNothing : Prop :=
  ∀ (s : State) (rest : List HostAct), s.env.port = .terminate :: rest →
    (s.env.phase = .notStarted ∨
      (s.env.phase = .running ∧ s.out.length ≤ s.env.taken ∧ s.env.chunk = []) ∨
      (s.env.phase = .running ∧ s.env.taken < s.out.length ∧ s.env.sink = []) ∨
      (s.env.phase = .readerGone ∧ s.env.daemon = true ∧ s.env.sink = []) →
      step s = .next { s with env := { s.env with port := rest, phase := .terminated .clean, chunk := [] } }) ∧
    (∀ c, s.env.phase = .terminated c → step s = .next { s with env := { s.env with port := rest } })

/-- R225, R226: a pipe error loses the pending bytes and changes nothing of the core; in daemon mode a re-open resumes
with the core intact, from the next chunk, and without daemon mode the run ends with an error. That what is left of the
chunk in progress is dropped at the pipe error itself is the model's choice of moment (log 11). -/
def Obligations.ReaderChangeKeepsTheCore : Prop :=
  ∀ (s : State) (rest : List SinkAct),
    (s.env.phase = .running → s.env.taken < s.out.length → s.env.sink = .pipeError :: rest →
      step s = .next { s with
        env := { s.env with phase := .readerGone, chunk := [], sink := rest, taken := s.out.length } }) ∧
    (s.env.phase = .readerGone → s.env.daemon = true → s.env.sink = .reopened :: rest →
      step s = .next { s with env := { s.env with phase := .running, chunk := [], sink := rest } }) ∧
    (s.env.phase = .readerGone → s.env.daemon = true → s.env.sink = .reopenFailed :: rest →
      step s = .next { s with env := { s.env with phase := .terminated .error, chunk := [], sink := rest } }) ∧
    (s.env.phase = .readerGone → s.env.daemon = false →
      step s = .next { s with env := { s.env with phase := .terminated .error, chunk := [] } })

/-- R227, R241, R243, I14-I16: what a model must refuse is refused by name: a sample or chunk before the first reset or
after the end of a run, an operation inside another one, a mode switch without reset. -/
def Obligations.HostMisuseIsRefused : Prop :=
  ∀ (s : State) (rest : List HostAct),
    (s.env.phase = .notStarted ∨ (∃ c, s.env.phase = .terminated c) →
      ((∃ b, s.env.port = .present b :: rest) ∨ ∃ n bs, s.env.port = .chunk n bs :: rest) →
      step s = .refused .sampleBeforeReset) ∧
    (s.env.phase ≠ .readerGone → (s.env.phase = .running → s.env.taken < s.out.length → s.env.sink = []) →
      (s.env.phase = .running → s.out.length ≤ s.env.taken → s.env.chunk = []) →
      ((∃ b, s.env.port = .presentInside b :: rest) ∨ ∃ m, s.env.port = .resetInside m :: rest) →
      step s = .refused .operationInProgress) ∧
    (s.env.phase ≠ .readerGone → (s.env.phase = .running → s.env.taken < s.out.length → s.env.sink = []) →
      (s.env.phase = .running → s.out.length ≤ s.env.taken → s.env.chunk = []) →
      (∃ m, s.env.port = .switchMode m :: rest) → step s = .refused .modeChangeWithoutReset)

/-- R227: a host that keeps its duties, with no failure of the sink that ends the run, is never refused, and goes on
keeping them. `dutiful` is the model's reading of the duties (log 13). -/
def Obligations.DutifulHostIsNeverRefused : Prop :=
  ∀ s : State, s.env.dutiful = true → ∃ t, step s = .next t ∧ t.env.dutiful = true

/-! ## Invariants -/

/-- R40 at reset, in the default mode; the reset state holds the empty history. -/
def Obligations.ResetStateMeetsTheInvariant : Prop :=
  State.reset.Inv ∧ State.reset.Ledger ∧ State.reset.Holds [] []

/-- R40 (a), (b), (d), (e), (f) and the canonical form of the arrays (log 5): every step keeps them. -/
def Obligations.StepKeepsTheInvariant : Prop :=
  ∀ s t : State, s.Inv → step s = .next t → t.Inv

/-- R183, R200, R201, R78, R222: what OUT, EVT, PREV and HAVE_PREV say about each other is kept by every step. -/
def Obligations.StepKeepsTheLedger : Prop :=
  ∀ s t : State, s.Ledger → step s = .next t → t.Ledger

/-- R11, R26, I2, I3: with any parameters that a model may take (`Config.ok`, log 2, log 16), pushes keep HBUF and HPOS in
range. R27, R131: HASH_READY, once 1, stays 1. I1: where READY_PUSHES is not one full cycle, HASH_READY becomes 1 on push
number READY_PUSHES; that clause is stated on the push counter, a field of the model's own (log 14, DESIGN CHOICE). -/
def Obligations.PushStaysInRangeForAnyParameters : Prop :=
  ∀ (C : Config) (x : Bool) (s : State), C.ok → Mem.wf C.hashBytes s.hbuf = true → s.hpos < 8 * C.hashBytes →
    Mem.wf C.hashBytes (rejectBit C x s).hbuf = true ∧ (rejectBit C x s).hpos < 8 * C.hashBytes ∧
    (s.hashReady = true → (rejectBit C x s).hashReady = true) ∧
    (C.readyPushes ≠ 8 * C.hashBytes →
      (rejectBit C x s).hashReady = (s.hashReady || decide (C.readyPushes ≤ s.pushes + 1)))
end

