-- ==== Sys2Proof/Laws/Memory.lean ====
section
/-! SUPPORT. The laws of the storage arrays: reading after writing, the canonical form, whole-array reads and writes. -/

namespace Sys2Proof.Machine

namespace Mem

/-! ## Reading -/

@[simp] theorem read_nil (a : Nat) : Mem.read [] a = 0 := rfl

theorem read_pair (k : Nat) (v : Byte) (m : Mem) (a : Nat) :
    Mem.read ((k, v) :: m) a = if k = a then v else Mem.read m a := rfl

/-- Every index listed lies at or above `lo`. -/
def above (lo : Nat) (m : Mem) : Prop := ∀ p ∈ m, lo ≤ p.1

theorem read_eq_zero_of_above {lo a : Nat} {m : Mem} (h : above lo m) (ha : a < lo) : Mem.read m a = 0 := by
  induction m with
  | nil => rfl
  | cons p m ih =>
    obtain ⟨k, v⟩ := p
    have hk : lo ≤ k := h (k, v) (by simp)
    rw [read_pair, if_neg (by omega)]
    exact ih fun q hq => h q (by simp [hq])

/-! ## The canonical form -/

theorem wfFrom_pair {size lo k : Nat} {v : Byte} {m : Mem} :
    wfFrom size lo ((k, v) :: m) = true ↔ lo ≤ k ∧ k < size ∧ v ≠ 0 ∧ wfFrom size (k + 1) m = true := by
  simp [wfFrom, and_assoc]

theorem wfFrom_mono {size lo lo' : Nat} {m : Mem} (hl : lo' ≤ lo) (h : wfFrom size lo m = true) :
    wfFrom size lo' m = true := by
  cases m with
  | nil => rfl
  | cons p m =>
    obtain ⟨k, v⟩ := p
    rw [wfFrom_pair] at h ⊢
    exact ⟨by omega, h.2⟩

theorem above_of_wfFrom {size lo : Nat} {m : Mem} (h : wfFrom size lo m = true) : above lo m := by
  induction m generalizing lo with
  | nil => intro p hp; cases hp
  | cons p m ih =>
    obtain ⟨k, v⟩ := p
    rw [wfFrom_pair] at h
    intro q hq
    rcases List.mem_cons.1 hq with rfl | hq
    · exact h.1
    · have := ih h.2.2.2 q hq
      omega

theorem read_of_le_size {size lo a : Nat} {m : Mem} (h : wfFrom size lo m = true) (ha : size ≤ a) :
    Mem.read m a = 0 := by
  induction m generalizing lo with
  | nil => rfl
  | cons p m ih =>
    obtain ⟨k, v⟩ := p
    rw [wfFrom_pair] at h
    rw [read_pair, if_neg (by omega)]
    exact ih h.2.2.2

@[simp] theorem wf_nil (size : Nat) : wf size [] = true := rfl

/-! ## One more byte in front -/

theorem read_cons_same {a : Nat} {v : Byte} {m : Mem} (h : above (a + 1) m) : Mem.read (Mem.cons a v m) a = v := by
  unfold Mem.cons
  split
  · next hv => rw [hv]; exact read_eq_zero_of_above h (by omega)
  · simp [read_pair]

theorem read_cons_other {a b : Nat} {v : Byte} {m : Mem} (hab : a ≠ b) : Mem.read (Mem.cons a v m) b = Mem.read m b := by
  unfold Mem.cons
  split
  · rfl
  · rw [read_pair, if_neg hab]

theorem wfFrom_cons {size lo a : Nat} {v : Byte} {m : Mem} (hl : lo ≤ a) (ha : a < size)
    (h : wfFrom size (a + 1) m = true) : wfFrom size lo (Mem.cons a v m) = true := by
  unfold Mem.cons
  split
  · exact wfFrom_mono (by omega) h
  · next hv => exact wfFrom_pair.2 ⟨hl, ha, hv, h⟩

/-! ## Writing -/

theorem wfFrom_write {size lo a : Nat} {v : Byte} {m : Mem} (hl : lo ≤ a) (ha : a < size)
    (h : wfFrom size lo m = true) : wfFrom size lo (m.write a v) = true := by
  induction m generalizing lo with
  | nil => exact wfFrom_cons hl ha rfl
  | cons p m ih =>
    obtain ⟨k, w⟩ := p
    have hp := h
    rw [wfFrom_pair] at hp
    unfold Mem.write
    split
    · next hk => exact wfFrom_pair.2 ⟨hp.1, hp.2.1, hp.2.2.1, ih (by omega) hp.2.2.2⟩
    · split
      · next hk => subst hk; exact wfFrom_cons hl ha hp.2.2.2
      · next h1 h2 => exact wfFrom_cons hl ha (wfFrom_pair.2 ⟨by omega, hp.2⟩)

/-- Every write in range keeps the canonical form. -/
theorem wf_write {size a : Nat} {v : Byte} {m : Mem} (ha : a < size) (h : m.wf size = true) :
    (m.write a v).wf size = true := wfFrom_write (Nat.zero_le _) ha h

/-- Writing leaves every other index alone, in any list. -/
theorem read_write_other {a b : Nat} {v : Byte} (m : Mem) (hab : a ≠ b) : (m.write a v).read b = m.read b := by
  induction m with
  | nil => exact read_cons_other hab
  | cons p m ih =>
    obtain ⟨k, w⟩ := p
    unfold Mem.write
    split
    · simp only [read_pair, ih]
    · split
      · next hk => subst hk; rw [read_cons_other hab, read_pair, if_neg hab]
      · exact read_cons_other hab

theorem read_write_same_of_wfFrom {size lo a : Nat} {v : Byte} {m : Mem} (h : wfFrom size lo m = true) :
    (m.write a v).read a = v := by
  induction m generalizing lo with
  | nil => exact read_cons_same fun p hp => by cases hp
  | cons p m ih =>
    obtain ⟨k, w⟩ := p
    have hp := wfFrom_pair.1 h
    unfold Mem.write
    split
    · next hk => rw [read_pair, if_neg (by omega)]; exact ih hp.2.2.2
    · split
      · next hk => subst hk; exact read_cons_same (above_of_wfFrom hp.2.2.2)
      · next h1 h2 =>
        exact read_cons_same (above_of_wfFrom (size := size) (wfFrom_pair.2 ⟨by omega, hp.2⟩))

/-- A read after a write to the same index gives the byte written. -/
theorem read_write_same {size a : Nat} {v : Byte} {m : Mem} (h : m.wf size = true) : (m.write a v).read a = v :=
  read_write_same_of_wfFrom h

/-- Both cases at once. -/
theorem read_write {size a b : Nat} {v : Byte} {m : Mem} (h : m.wf size = true) :
    (m.write a v).read b = if a = b then v else m.read b := by
  split
  · next hab => subst hab; exact read_write_same h
  · next hab => exact read_write_other m hab

/-! ## Canonical arrays are determined by what they read -/

theorem ext_of_wfFrom {size lo : Nat} {m n : Mem} (hm : wfFrom size lo m = true) (hn : wfFrom size lo n = true)
    (h : ∀ a, m.read a = n.read a) : m = n := by
  induction m generalizing lo n with
  | nil =>
    cases n with
    | nil => rfl
    | cons q n =>
      obtain ⟨k, v⟩ := q
      have := h k
      simp only [read_nil, read_pair, if_true] at this
      exact absurd this.symm (wfFrom_pair.1 hn).2.2.1
  | cons p m ih =>
    obtain ⟨k, v⟩ := p
    have hp := wfFrom_pair.1 hm
    cases n with
    | nil =>
      have := h k
      simp only [read_nil, read_pair, if_true] at this
      exact absurd this hp.2.2.1
    | cons q n =>
      obtain ⟨k', v'⟩ := q
      have hq := wfFrom_pair.1 hn
      have hkk : k = k' := by
        rcases Nat.lt_trichotomy k k' with hlt | heq | hgt
        · have hk := h k
          rw [read_pair, if_pos rfl, read_eq_zero_of_above (lo := k')
            (above_of_wfFrom (size := size) (wfFrom_pair.2 ⟨Nat.le_refl k', hq.2⟩)) hlt] at hk
          exact absurd hk hp.2.2.1
        · exact heq
        · have hk := h k'
          rw [read_pair k', if_pos rfl, read_eq_zero_of_above (lo := k)
            (above_of_wfFrom (size := size) (wfFrom_pair.2 ⟨Nat.le_refl k, hp.2⟩)) hgt] at hk
          exact absurd hk.symm hq.2.2.1
      subst hkk
      have hv : v = v' := by simpa [read_pair] using h k
      subst hv
      rw [ih hp.2.2.2 hq.2.2.2 fun a => ?_]
      by_cases ha : k = a
      · subst ha
        rw [read_eq_zero_of_above (above_of_wfFrom hp.2.2.2) (by omega),
          read_eq_zero_of_above (above_of_wfFrom hq.2.2.2) (by omega)]
      · simpa [read_pair, ha] using h a

/-- Equal contents, equal arrays. -/
theorem ext {size : Nat} {m n : Mem} (hm : m.wf size = true) (hn : n.wf size = true)
    (h : ∀ a, m.read a = n.read a) : m = n := ext_of_wfFrom hm hn h

/-! ## Whole arrays -/

@[simp] theorem length_bytes (m : Mem) (size : Nat) : (m.bytes size).length = size := by simp [bytes]

@[simp] theorem getElem_bytes (m : Mem) (size j : Nat) (h : j < (m.bytes size).length) : (m.bytes size)[j] = m.read j := by
  simp [bytes]

theorem getD_bytes (m : Mem) {size j : Nat} (h : j < size) : (m.bytes size).getD j 0 = m.read j := by
  rw [List.getD_eq_getElem _ _ (by simpa using h)]
  exact getElem_bytes m size j _

theorem wfFrom_ofBytesFrom {size : Nat} (a : Nat) (bs : List Byte) (h : a + bs.length ≤ size) :
    wfFrom size a (ofBytesFrom a bs) = true := by
  induction bs generalizing a with
  | nil => rfl
  | cons v bs ih =>
    simp only [List.length_cons] at h
    exact wfFrom_cons (Nat.le_refl a) (by omega) (ih (a + 1) (by omega))

/-- Writing a whole byte sequence gives a canonical array. -/
theorem wf_ofBytes {size : Nat} {bs : List Byte} (h : bs.length ≤ size) : (ofBytes bs).wf size = true :=
  wfFrom_ofBytesFrom 0 bs (by omega)

theorem read_ofBytesFrom (a : Nat) (bs : List Byte) (j : Nat) : (ofBytesFrom a bs).read (a + j) = bs.getD j 0 := by
  induction bs generalizing a j with
  | nil => simp [ofBytesFrom]
  | cons v bs ih =>
    cases j with
    | zero =>
      exact read_cons_same (above_of_wfFrom (size := a + 1 + bs.length) (wfFrom_ofBytesFrom (a + 1) bs (by omega)))
    | succ j =>
      rw [ofBytesFrom, read_cons_other (by omega), show a + (j + 1) = a + 1 + j by omega, ih]
      simp

/-- The array written from a byte sequence reads back as it. -/
@[simp] theorem read_ofBytes (bs : List Byte) (j : Nat) : (ofBytes bs).read j = bs.getD j 0 := by
  simpa [ofBytes] using read_ofBytesFrom 0 bs j

/-- A whole-array write and a whole-array read are inverse. -/
theorem bytes_ofBytes {bs : List Byte} {size : Nat} (h : bs.length = size) : (ofBytes bs).bytes size = bs := by
  subst h
  apply List.ext_getElem (by simp)
  intro j h1 h2
  rw [getElem_bytes, read_ofBytes, List.getD_eq_getElem _ _ h2]

/-- An empty array reads as zeros. -/
theorem bytes_nil (size : Nat) : Mem.bytes [] size = List.replicate size 0 := by
  apply List.ext_getElem (by simp)
  intro j h1 h2
  simp

/-- Reading a canonical array whole and writing it back changes nothing. -/
theorem ofBytes_bytes {size : Nat} {m : Mem} (h : m.wf size = true) : ofBytes (m.bytes size) = m := by
  refine ext (size := size) (wf_ofBytes (by simp)) h fun a => ?_
  rw [read_ofBytes]
  by_cases ha : a < size
  · exact getD_bytes m ha
  · rw [read_of_le_size h (by omega), List.getD_eq_default _ _ (by simp; omega)]

end Mem

end Sys2Proof.Machine
end

