-- ==== Sys2Proof/Laws/Bits.lean ====
section
/-! SUPPORT. The bits of a byte after one bit was set (R120) or overwritten (R130), and the bits of an array after
such a write (R51, R52). -/

namespace Sys2Proof.Machine

theorem getLsbD_bitByte_shift (x : Bool) (k i : Nat) :
    (bitByte x <<< k).getLsbD i = (decide (i < 8) && decide (i = k) && x) := by
  cases x with
  | false => simp [bitByte]
  | true =>
    have h1 : (1#8).getLsbD (i - k) = decide (i - k = 0) := by
      rw [BitVec.getLsbD_one]
      by_cases h : i - k = 0 <;> simp [h]
    simp only [bitByte, if_true, BitVec.getLsbD_shiftLeft]
    rw [show (1 : Byte) = 1#8 from rfl, h1]
    by_cases h8 : i < 8 <;> by_cases hk : i < k <;> simp [h8, hk] <;> omega

/-- An append sets its bit where `x` is 1 and changes no other bit. -/
theorem getLsbD_orBit (v : Byte) (k i : Nat) (x : Bool) :
    (orBit v k x).getLsbD i = (v.getLsbD i || (decide (i < 8) && decide (i = k) && x)) := by
  simp only [orBit, BitVec.getLsbD_or, getLsbD_bitByte_shift]

/-- A push puts its value into its bit and changes no other bit. -/
theorem getLsbD_putBit (v : Byte) (k i : Nat) (x : Bool) :
    (putBit v k x).getLsbD i = if i = k then decide (i < 8) && x else v.getLsbD i := by
  have h1 : (1#8 <<< k).getLsbD i = (decide (i < 8) && decide (i = k)) := by
    simpa [bitByte] using getLsbD_bitByte_shift true k i
  simp only [putBit, BitVec.getLsbD_or, BitVec.getLsbD_and, BitVec.getLsbD_not, getLsbD_bitByte_shift, h1]
  by_cases h8 : i < 8
  · by_cases hk : i = k <;> simp [h8, hk]
  · have : v.getLsbD i = false := BitVec.getLsbD_of_ge v i (by omega)
    simp [h8, this]

/-- An append of 0 writes back the byte it read. -/
theorem orBit_false (v : Byte) (k : Nat) : orBit v k false = v := by simp [orBit, bitByte]

namespace Mem

/-- Bit `k` of byte `j`. -/
def bitAt (m : Mem) (j k : Nat) : Bool := (m.read j).getLsbD k

@[simp] theorem bitAt_nil (j k : Nat) : bitAt [] j k = false := by simp [bitAt]

theorem bitAt_write {size a : Nat} {v : Byte} {m : Mem} (h : m.wf size = true) (j k : Nat) :
    (m.write a v).bitAt j k = if a = j then v.getLsbD k else m.bitAt j k := by
  unfold bitAt
  rw [read_write h]
  split <;> rfl

end Mem

end Sys2Proof.Machine
end

