-- ==== Sys2Proof/Laws/Fips.lean ====
section
/-! SUPPORT. The monitor's pieces: the spec's limits, the test sequence, the segments, how a run list grows, the words
of a block. -/

namespace Sys2Proof.Machine

/-! ## The limits of R161 -/

@[simp] theorem specLimits_monoLo : specLimits.monoLo = 9725 := rfl
@[simp] theorem specLimits_monoHi : specLimits.monoHi = 10275 := rfl
@[simp] theorem specLimits_pokerLo16 : specLimits.pokerLo16 = 25010800 := rfl
@[simp] theorem specLimits_pokerHi16 : specLimits.pokerHi16 = 25230850 := rfl
@[simp] theorem specLimits_runLo : specLimits.runLo = [2315, 1114, 527, 240, 103, 103] := rfl
@[simp] theorem specLimits_runHi : specLimits.runHi = [2685, 1386, 723, 384, 209, 209] := rfl
@[simp] theorem specLimits_longRun : specLimits.longRun = 26 := rfl

theorem monobitFails_eq_false (L : FipsLimits) (x : Nat) :
    monobitFails L x = false ↔ L.monoLo < x ∧ x < L.monoHi := by
  simp [monobitFails]

theorem pokerFails_eq_false (L : FipsLimits) (x : Nat) :
    pokerFails L x = false ↔ L.pokerLo16 < 16 * x ∧ 16 * x < L.pokerHi16 := by
  simp [pokerFails]

theorem runCountFails_eq_false (L : FipsLimits) (c n : Nat) :
    runCountFails L c n = false ↔ L.runLo.getD (c - 1) 0 ≤ n ∧ n ≤ L.runHi.getD (c - 1) 0 := by
  simp [runCountFails]

theorem longRunFails_eq_true (L : FipsLimits) (rs : List (Bool × Nat)) :
    longRunFails L rs = true ↔ ∃ r ∈ rs, L.longRun ≤ r.2 := by
  simp only [longRunFails, List.any_eq_true, decide_eq_true_eq]

/-! ## The test sequence -/

@[simp] theorem length_scanByte (o : ScanOrder) (b : Byte) : (scanByte o b).length = 8 := by simp [scanByte]

@[simp] theorem seqBits_nil (o : ScanOrder) : seqBits o [] = [] := rfl

theorem seqBits_cons (o : ScanOrder) (b : Byte) (B : List Byte) : seqBits o (b :: B) = scanByte o b ++ seqBits o B :=
  List.flatMap_cons

@[simp] theorem length_seqBits (o : ScanOrder) (B : List Byte) : (seqBits o B).length = 8 * B.length := by
  induction B with
  | nil => rfl
  | cons b B ih => rw [seqBits_cons, List.length_append, ih, length_scanByte, List.length_cons]; omega

/-- Bit `8j + k` of the sequence is bit `k` of the scan of byte `j`. -/
theorem getElem_seqBits (o : ScanOrder) {B : List Byte} {j k : Nat} (hj : j < B.length) (hk : k < 8) :
    (seqBits o B)[8 * j + k]? = (scanByte o (B.getD j 0))[k]? := by
  induction B generalizing j with
  | nil => simp at hj
  | cons b B ih =>
    rw [seqBits_cons]
    cases j with
    | zero => rw [List.getElem?_append_left (by rw [length_scanByte]; omega)]; simp
    | succ j =>
      rw [List.getElem?_append_right (by rw [length_scanByte]; omega), length_scanByte,
        show 8 * (j + 1) + k - 8 = 8 * j + k by omega]
      simpa using ih (by simpa using hj)

/-! ## Segments -/

/-- Segments of whole groups of four are cut independently. -/
theorem segments_append {a : List Bool} (b : List Bool) (h : a.length % 4 = 0) :
    segments (a ++ b) = segments a ++ segments b := by
  induction a using segments.induct with
  | case1 x y z w s ih =>
    simp only [List.length_cons] at h
    simp only [List.cons_append, segments]
    rw [ih (by omega)]
  | case2 t ht =>
    match t, ht with
    | [], _ => rfl
    | [_], _ => simp at h
    | [_, _], _ => simp at h
    | [_, _, _], _ => simp at h
    | x :: y :: z :: w :: e, ht => exact absurd rfl (ht x y z w e)

/-- Every segment value is a 4-bit number. -/
theorem segments_lt (s : List Bool) : ∀ v ∈ segments s, v < 16 := by
  induction s using segments.induct with
  | case1 a b c d s ih =>
    intro v hv
    simp only [segments, List.mem_cons] at hv
    rcases hv with rfl | hv
    · cases a <;> cases b <;> cases c <;> cases d <;> decide
    · exact ih v hv
  | case2 t ht =>
    match t, ht with
    | [], _ => intro v hv; cases hv
    | [_], _ => intro v hv; cases hv
    | [_, _], _ => intro v hv; cases hv
    | [_, _, _], _ => intro v hv; cases hv
    | a :: b :: c :: d :: e, ht => exact absurd rfl (ht a b c d e)

theorem length_segments (s : List Bool) : (segments s).length = s.length / 4 := by
  induction s using segments.induct with
  | case1 a b c d s ih => simp only [segments, List.length_cons, ih]; omega
  | case2 t ht =>
    match t, ht with
    | [], _ => rfl
    | [_], _ => simp [segments]
    | [_, _], _ => simp [segments]
    | [_, _, _], _ => simp [segments]
    | a :: b :: c :: d :: e, ht => exact absurd rfl (ht a b c d e)

/-! ## Runs -/

@[simp] theorem runsOf_nil : runsOf [] = [] := rfl

theorem runsOf_cons (b : Bool) (s : List Bool) : runsOf (b :: s) = addToRuns b (runsOf s) := rfl

@[simp] theorem addToRuns_nil (b : Bool) : addToRuns b [] = [(b, 1)] := rfl

theorem addToRuns_cons (b v : Bool) (n : Nat) (rs : List (Bool × Nat)) :
    addToRuns b ((v, n) :: rs) = if v = b then (v, n + 1) :: rs else (b, 1) :: (v, n) :: rs := rfl

/-- The first run has the value of the first bit. -/
theorem runsOf_head (b : Bool) (s : List Bool) : ∃ n rs, runsOf (b :: s) = (b, n) :: rs := by
  rw [runsOf_cons]
  cases h : runsOf s with
  | nil => exact ⟨_, _, rfl⟩
  | cons r rs =>
    obtain ⟨v, n⟩ := r
    rw [addToRuns_cons]
    split
    · next hv => exact ⟨_, _, by rw [hv]⟩
    · exact ⟨_, _, rfl⟩

/-- Runs of a concatenation whose parts meet at a change of value. -/
theorem runsOf_append (a b : Bool) (s t : List Bool) (h : a ≠ b) :
    runsOf ((s ++ [a]) ++ b :: t) = runsOf (s ++ [a]) ++ runsOf (b :: t) := by
  induction s with
  | nil =>
    obtain ⟨n, rs, hr⟩ := runsOf_head b t
    simp only [List.nil_append, List.cons_append]
    rw [runsOf_cons, hr, addToRuns_cons, if_neg (Ne.symm h)]
    rfl
  | cons c s ih =>
    have hc : runsOf ((c :: s ++ [a]) ++ b :: t) = addToRuns c (runsOf (s ++ [a]) ++ runsOf (b :: t)) := by
      rw [← ih]; rfl
    obtain ⟨v, n, rs, hr⟩ : ∃ v n rs, runsOf (s ++ [a]) = (v, n) :: rs := by
      cases s with
      | nil => exact ⟨a, 1, [], rfl⟩
      | cons d s => exact ⟨d, runsOf_head d (s ++ [a])⟩
    have hs : runsOf (c :: s ++ [a]) = addToRuns c ((v, n) :: rs) := by rw [← hr]; rfl
    rw [hc, hs, hr, List.cons_append, addToRuns_cons, addToRuns_cons]
    split <;> rfl

/-! ## The words of a block -/

theorem crngWords_nil (p : Word32) : crngWords p [] = (false, p) := rfl

theorem crngWords_cons (p w : Word32) (ws : List Word32) :
    crngWords p (w :: ws) = (decide (w = p) || (crngWords w ws).1, (crngWords w ws).2) := rfl

/-- Bit `i` of a little-endian word of at most four bytes is bit `i % 8` of byte `i / 8` (R57). -/
theorem getLsbD_littleEndian {bs : List Byte} (h : bs.length ≤ 4) (i : Nat) :
    (littleEndian bs).getLsbD i = (bs.getD (i / 8) 0).getLsbD (i % 8) := by
  induction bs generalizing i with
  | nil => simp [littleEndian]
  | cons b bs ih =>
    simp only [List.length_cons] at h
    have hz : ∀ j, 32 ≤ j + 8 → (bs.getD (j / 8) 0).getLsbD (j % 8) = false := fun j hj => by
      rw [List.getD_eq_default _ _ (by omega)]; simp
    simp only [littleEndian, BitVec.getLsbD_or, BitVec.getLsbD_setWidth, BitVec.getLsbD_shiftLeft]
    rw [ih (by omega)]
    by_cases h8 : i < 8
    · rw [show i / 8 = 0 by omega, show i % 8 = i by omega]
      simp [h8, show i < 32 by omega]
    · have hb : b.getLsbD i = false := BitVec.getLsbD_of_ge _ _ (by omega)
      rw [show i / 8 = (i - 8) / 8 + 1 by omega, show i % 8 = (i - 8) % 8 by omega, List.getD_cons_succ, hb]
      by_cases h32 : i < 32
      · simp [h8, h32]
      · rw [hz (i - 8) (by omega)]; simp [h32]

@[simp] theorem length_blockWords (size n : Nat) (B : List Byte) : (blockWords size n B).length = n := by
  induction n generalizing B with
  | zero => rfl
  | succ n ih => simp [blockWords, ih]

/-- Word `t` is made of the bytes from `size * t` on (R158). -/
theorem getElem_blockWords {size n t : Nat} (B : List Byte) (h : t < n) :
    (blockWords size n B)[t]? = some (littleEndian ((B.drop (size * t)).take size)) := by
  induction n generalizing B t with
  | zero => omega
  | succ n ih =>
    cases t with
    | zero => simp [blockWords]
    | succ t =>
      rw [blockWords, List.getElem?_cons_succ, ih _ (by omega), List.drop_drop, Nat.mul_succ, Nat.add_comm]

end Sys2Proof.Machine
end

