-- ==== Sys2Proof/Laws/State.lean ====
section
/-! SUPPORT. One lemma per field per update of State, so that no proof unfolds a record update; the fields of the
state after reset; equality of states field by field. -/

namespace Sys2Proof.Machine.State

variable (s : State)

/-! ## withAcc -/

@[simp] theorem mode_withAcc (m : Mem) : (s.withAcc m).mode = s.mode := rfl
@[simp] theorem acc_withAcc (m : Mem) : (s.withAcc m).acc = m := rfl
@[simp] theorem bitcnt_withAcc (m : Mem) : (s.withAcc m).bitcnt = s.bitcnt := rfl
@[simp] theorem bytecnt_withAcc (m : Mem) : (s.withAcc m).bytecnt = s.bytecnt := rfl
@[simp] theorem hbuf_withAcc (m : Mem) : (s.withAcc m).hbuf = s.hbuf := rfl
@[simp] theorem hpos_withAcc (m : Mem) : (s.withAcc m).hpos = s.hpos := rfl
@[simp] theorem hashReady_withAcc (m : Mem) : (s.withAcc m).hashReady = s.hashReady := rfl
@[simp] theorem prev_withAcc (m : Mem) : (s.withAcc m).prev = s.prev := rfl
@[simp] theorem havePrev_withAcc (m : Mem) : (s.withAcc m).havePrev = s.havePrev := rfl
@[simp] theorem fipsLast32_withAcc (m : Mem) : (s.withAcc m).fipsLast32 = s.fipsLast32 := rfl
@[simp] theorem lastMask_withAcc (m : Mem) : (s.withAcc m).lastMask = s.lastMask := rfl
@[simp] theorem keyreg_withAcc (m : Mem) : (s.withAcc m).keyreg = s.keyreg := rfl
@[simp] theorem out_withAcc (m : Mem) : (s.withAcc m).out = s.out := rfl
@[simp] theorem evt_withAcc (m : Mem) : (s.withAcc m).evt = s.evt := rfl
@[simp] theorem pushes_withAcc (m : Mem) : (s.withAcc m).pushes = s.pushes := rfl
@[simp] theorem env_withAcc (m : Mem) : (s.withAcc m).env = s.env := rfl

/-! ## withPos -/

@[simp] theorem mode_withPos (i j : Nat) : (s.withPos i j).mode = s.mode := rfl
@[simp] theorem acc_withPos (i j : Nat) : (s.withPos i j).acc = s.acc := rfl
@[simp] theorem bitcnt_withPos (i j : Nat) : (s.withPos i j).bitcnt = i := rfl
@[simp] theorem bytecnt_withPos (i j : Nat) : (s.withPos i j).bytecnt = j := rfl
@[simp] theorem hbuf_withPos (i j : Nat) : (s.withPos i j).hbuf = s.hbuf := rfl
@[simp] theorem hpos_withPos (i j : Nat) : (s.withPos i j).hpos = s.hpos := rfl
@[simp] theorem hashReady_withPos (i j : Nat) : (s.withPos i j).hashReady = s.hashReady := rfl
@[simp] theorem prev_withPos (i j : Nat) : (s.withPos i j).prev = s.prev := rfl
@[simp] theorem havePrev_withPos (i j : Nat) : (s.withPos i j).havePrev = s.havePrev := rfl
@[simp] theorem fipsLast32_withPos (i j : Nat) : (s.withPos i j).fipsLast32 = s.fipsLast32 := rfl
@[simp] theorem lastMask_withPos (i j : Nat) : (s.withPos i j).lastMask = s.lastMask := rfl
@[simp] theorem keyreg_withPos (i j : Nat) : (s.withPos i j).keyreg = s.keyreg := rfl
@[simp] theorem out_withPos (i j : Nat) : (s.withPos i j).out = s.out := rfl
@[simp] theorem evt_withPos (i j : Nat) : (s.withPos i j).evt = s.evt := rfl
@[simp] theorem pushes_withPos (i j : Nat) : (s.withPos i j).pushes = s.pushes := rfl
@[simp] theorem env_withPos (i j : Nat) : (s.withPos i j).env = s.env := rfl

/-! ## withHash -/

@[simp] theorem mode_withHash (m : Mem) (h : Nat) (r : Bool) (n : Nat) : (s.withHash m h r n).mode = s.mode := rfl
@[simp] theorem acc_withHash (m : Mem) (h : Nat) (r : Bool) (n : Nat) : (s.withHash m h r n).acc = s.acc := rfl
@[simp] theorem bitcnt_withHash (m : Mem) (h : Nat) (r : Bool) (n : Nat) : (s.withHash m h r n).bitcnt = s.bitcnt := rfl
@[simp] theorem bytecnt_withHash (m : Mem) (h : Nat) (r : Bool) (n : Nat) : (s.withHash m h r n).bytecnt = s.bytecnt := rfl
@[simp] theorem hbuf_withHash (m : Mem) (h : Nat) (r : Bool) (n : Nat) : (s.withHash m h r n).hbuf = m := rfl
@[simp] theorem hpos_withHash (m : Mem) (h : Nat) (r : Bool) (n : Nat) : (s.withHash m h r n).hpos = h := rfl
@[simp] theorem hashReady_withHash (m : Mem) (h : Nat) (r : Bool) (n : Nat) : (s.withHash m h r n).hashReady = r := rfl
@[simp] theorem prev_withHash (m : Mem) (h : Nat) (r : Bool) (n : Nat) : (s.withHash m h r n).prev = s.prev := rfl
@[simp] theorem havePrev_withHash (m : Mem) (h : Nat) (r : Bool) (n : Nat) : (s.withHash m h r n).havePrev = s.havePrev := rfl
@[simp] theorem fipsLast32_withHash (m : Mem) (h : Nat) (r : Bool) (n : Nat) : (s.withHash m h r n).fipsLast32 = s.fipsLast32 := rfl
@[simp] theorem lastMask_withHash (m : Mem) (h : Nat) (r : Bool) (n : Nat) : (s.withHash m h r n).lastMask = s.lastMask := rfl
@[simp] theorem keyreg_withHash (m : Mem) (h : Nat) (r : Bool) (n : Nat) : (s.withHash m h r n).keyreg = s.keyreg := rfl
@[simp] theorem out_withHash (m : Mem) (h : Nat) (r : Bool) (n : Nat) : (s.withHash m h r n).out = s.out := rfl
@[simp] theorem evt_withHash (m : Mem) (h : Nat) (r : Bool) (n : Nat) : (s.withHash m h r n).evt = s.evt := rfl
@[simp] theorem pushes_withHash (m : Mem) (h : Nat) (r : Bool) (n : Nat) : (s.withHash m h r n).pushes = n := rfl
@[simp] theorem env_withHash (m : Mem) (h : Nat) (r : Bool) (n : Nat) : (s.withHash m h r n).env = s.env := rfl

/-! ## withPrev -/

@[simp] theorem mode_withPrev (m : Mem) (p : Bool) : (s.withPrev m p).mode = s.mode := rfl
@[simp] theorem acc_withPrev (m : Mem) (p : Bool) : (s.withPrev m p).acc = s.acc := rfl
@[simp] theorem bitcnt_withPrev (m : Mem) (p : Bool) : (s.withPrev m p).bitcnt = s.bitcnt := rfl
@[simp] theorem bytecnt_withPrev (m : Mem) (p : Bool) : (s.withPrev m p).bytecnt = s.bytecnt := rfl
@[simp] theorem hbuf_withPrev (m : Mem) (p : Bool) : (s.withPrev m p).hbuf = s.hbuf := rfl
@[simp] theorem hpos_withPrev (m : Mem) (p : Bool) : (s.withPrev m p).hpos = s.hpos := rfl
@[simp] theorem hashReady_withPrev (m : Mem) (p : Bool) : (s.withPrev m p).hashReady = s.hashReady := rfl
@[simp] theorem prev_withPrev (m : Mem) (p : Bool) : (s.withPrev m p).prev = m := rfl
@[simp] theorem havePrev_withPrev (m : Mem) (p : Bool) : (s.withPrev m p).havePrev = p := rfl
@[simp] theorem fipsLast32_withPrev (m : Mem) (p : Bool) : (s.withPrev m p).fipsLast32 = s.fipsLast32 := rfl
@[simp] theorem lastMask_withPrev (m : Mem) (p : Bool) : (s.withPrev m p).lastMask = s.lastMask := rfl
@[simp] theorem keyreg_withPrev (m : Mem) (p : Bool) : (s.withPrev m p).keyreg = s.keyreg := rfl
@[simp] theorem out_withPrev (m : Mem) (p : Bool) : (s.withPrev m p).out = s.out := rfl
@[simp] theorem evt_withPrev (m : Mem) (p : Bool) : (s.withPrev m p).evt = s.evt := rfl
@[simp] theorem pushes_withPrev (m : Mem) (p : Bool) : (s.withPrev m p).pushes = s.pushes := rfl
@[simp] theorem env_withPrev (m : Mem) (p : Bool) : (s.withPrev m p).env = s.env := rfl

/-! ## withVerdict -/

@[simp] theorem mode_withVerdict (w : Word32) (k : BitVec 5) : (s.withVerdict w k).mode = s.mode := rfl
@[simp] theorem acc_withVerdict (w : Word32) (k : BitVec 5) : (s.withVerdict w k).acc = s.acc := rfl
@[simp] theorem bitcnt_withVerdict (w : Word32) (k : BitVec 5) : (s.withVerdict w k).bitcnt = s.bitcnt := rfl
@[simp] theorem bytecnt_withVerdict (w : Word32) (k : BitVec 5) : (s.withVerdict w k).bytecnt = s.bytecnt := rfl
@[simp] theorem hbuf_withVerdict (w : Word32) (k : BitVec 5) : (s.withVerdict w k).hbuf = s.hbuf := rfl
@[simp] theorem hpos_withVerdict (w : Word32) (k : BitVec 5) : (s.withVerdict w k).hpos = s.hpos := rfl
@[simp] theorem hashReady_withVerdict (w : Word32) (k : BitVec 5) : (s.withVerdict w k).hashReady = s.hashReady := rfl
@[simp] theorem prev_withVerdict (w : Word32) (k : BitVec 5) : (s.withVerdict w k).prev = s.prev := rfl
@[simp] theorem havePrev_withVerdict (w : Word32) (k : BitVec 5) : (s.withVerdict w k).havePrev = s.havePrev := rfl
@[simp] theorem fipsLast32_withVerdict (w : Word32) (k : BitVec 5) : (s.withVerdict w k).fipsLast32 = w := rfl
@[simp] theorem lastMask_withVerdict (w : Word32) (k : BitVec 5) : (s.withVerdict w k).lastMask = k := rfl
@[simp] theorem keyreg_withVerdict (w : Word32) (k : BitVec 5) : (s.withVerdict w k).keyreg = s.keyreg := rfl
@[simp] theorem out_withVerdict (w : Word32) (k : BitVec 5) : (s.withVerdict w k).out = s.out := rfl
@[simp] theorem evt_withVerdict (w : Word32) (k : BitVec 5) : (s.withVerdict w k).evt = s.evt := rfl
@[simp] theorem pushes_withVerdict (w : Word32) (k : BitVec 5) : (s.withVerdict w k).pushes = s.pushes := rfl
@[simp] theorem env_withVerdict (w : Word32) (k : BitVec 5) : (s.withVerdict w k).env = s.env := rfl

/-! ## withKeyreg -/

@[simp] theorem mode_withKeyreg (m : Mem) : (s.withKeyreg m).mode = s.mode := rfl
@[simp] theorem acc_withKeyreg (m : Mem) : (s.withKeyreg m).acc = s.acc := rfl
@[simp] theorem bitcnt_withKeyreg (m : Mem) : (s.withKeyreg m).bitcnt = s.bitcnt := rfl
@[simp] theorem bytecnt_withKeyreg (m : Mem) : (s.withKeyreg m).bytecnt = s.bytecnt := rfl
@[simp] theorem hbuf_withKeyreg (m : Mem) : (s.withKeyreg m).hbuf = s.hbuf := rfl
@[simp] theorem hpos_withKeyreg (m : Mem) : (s.withKeyreg m).hpos = s.hpos := rfl
@[simp] theorem hashReady_withKeyreg (m : Mem) : (s.withKeyreg m).hashReady = s.hashReady := rfl
@[simp] theorem prev_withKeyreg (m : Mem) : (s.withKeyreg m).prev = s.prev := rfl
@[simp] theorem havePrev_withKeyreg (m : Mem) : (s.withKeyreg m).havePrev = s.havePrev := rfl
@[simp] theorem fipsLast32_withKeyreg (m : Mem) : (s.withKeyreg m).fipsLast32 = s.fipsLast32 := rfl
@[simp] theorem lastMask_withKeyreg (m : Mem) : (s.withKeyreg m).lastMask = s.lastMask := rfl
@[simp] theorem keyreg_withKeyreg (m : Mem) : (s.withKeyreg m).keyreg = m := rfl
@[simp] theorem out_withKeyreg (m : Mem) : (s.withKeyreg m).out = s.out := rfl
@[simp] theorem evt_withKeyreg (m : Mem) : (s.withKeyreg m).evt = s.evt := rfl
@[simp] theorem pushes_withKeyreg (m : Mem) : (s.withKeyreg m).pushes = s.pushes := rfl
@[simp] theorem env_withKeyreg (m : Mem) : (s.withKeyreg m).env = s.env := rfl

/-! ## withOut -/

@[simp] theorem mode_withOut (o : List Byte) : (s.withOut o).mode = s.mode := rfl
@[simp] theorem acc_withOut (o : List Byte) : (s.withOut o).acc = s.acc := rfl
@[simp] theorem bitcnt_withOut (o : List Byte) : (s.withOut o).bitcnt = s.bitcnt := rfl
@[simp] theorem bytecnt_withOut (o : List Byte) : (s.withOut o).bytecnt = s.bytecnt := rfl
@[simp] theorem hbuf_withOut (o : List Byte) : (s.withOut o).hbuf = s.hbuf := rfl
@[simp] theorem hpos_withOut (o : List Byte) : (s.withOut o).hpos = s.hpos := rfl
@[simp] theorem hashReady_withOut (o : List Byte) : (s.withOut o).hashReady = s.hashReady := rfl
@[simp] theorem prev_withOut (o : List Byte) : (s.withOut o).prev = s.prev := rfl
@[simp] theorem havePrev_withOut (o : List Byte) : (s.withOut o).havePrev = s.havePrev := rfl
@[simp] theorem fipsLast32_withOut (o : List Byte) : (s.withOut o).fipsLast32 = s.fipsLast32 := rfl
@[simp] theorem lastMask_withOut (o : List Byte) : (s.withOut o).lastMask = s.lastMask := rfl
@[simp] theorem keyreg_withOut (o : List Byte) : (s.withOut o).keyreg = s.keyreg := rfl
@[simp] theorem out_withOut (o : List Byte) : (s.withOut o).out = o := rfl
@[simp] theorem evt_withOut (o : List Byte) : (s.withOut o).evt = s.evt := rfl
@[simp] theorem pushes_withOut (o : List Byte) : (s.withOut o).pushes = s.pushes := rfl
@[simp] theorem env_withOut (o : List Byte) : (s.withOut o).env = s.env := rfl

/-! ## withEvt -/

@[simp] theorem mode_withEvt (l : List Event) : (s.withEvt l).mode = s.mode := rfl
@[simp] theorem acc_withEvt (l : List Event) : (s.withEvt l).acc = s.acc := rfl
@[simp] theorem bitcnt_withEvt (l : List Event) : (s.withEvt l).bitcnt = s.bitcnt := rfl
@[simp] theorem bytecnt_withEvt (l : List Event) : (s.withEvt l).bytecnt = s.bytecnt := rfl
@[simp] theorem hbuf_withEvt (l : List Event) : (s.withEvt l).hbuf = s.hbuf := rfl
@[simp] theorem hpos_withEvt (l : List Event) : (s.withEvt l).hpos = s.hpos := rfl
@[simp] theorem hashReady_withEvt (l : List Event) : (s.withEvt l).hashReady = s.hashReady := rfl
@[simp] theorem prev_withEvt (l : List Event) : (s.withEvt l).prev = s.prev := rfl
@[simp] theorem havePrev_withEvt (l : List Event) : (s.withEvt l).havePrev = s.havePrev := rfl
@[simp] theorem fipsLast32_withEvt (l : List Event) : (s.withEvt l).fipsLast32 = s.fipsLast32 := rfl
@[simp] theorem lastMask_withEvt (l : List Event) : (s.withEvt l).lastMask = s.lastMask := rfl
@[simp] theorem keyreg_withEvt (l : List Event) : (s.withEvt l).keyreg = s.keyreg := rfl
@[simp] theorem out_withEvt (l : List Event) : (s.withEvt l).out = s.out := rfl
@[simp] theorem evt_withEvt (l : List Event) : (s.withEvt l).evt = l := rfl
@[simp] theorem pushes_withEvt (l : List Event) : (s.withEvt l).pushes = s.pushes := rfl
@[simp] theorem env_withEvt (l : List Event) : (s.withEvt l).env = s.env := rfl

/-! ## withEnv -/

@[simp] theorem mode_withEnv (e : HostSide) : (s.withEnv e).mode = s.mode := rfl
@[simp] theorem acc_withEnv (e : HostSide) : (s.withEnv e).acc = s.acc := rfl
@[simp] theorem bitcnt_withEnv (e : HostSide) : (s.withEnv e).bitcnt = s.bitcnt := rfl
@[simp] theorem bytecnt_withEnv (e : HostSide) : (s.withEnv e).bytecnt = s.bytecnt := rfl
@[simp] theorem hbuf_withEnv (e : HostSide) : (s.withEnv e).hbuf = s.hbuf := rfl
@[simp] theorem hpos_withEnv (e : HostSide) : (s.withEnv e).hpos = s.hpos := rfl
@[simp] theorem hashReady_withEnv (e : HostSide) : (s.withEnv e).hashReady = s.hashReady := rfl
@[simp] theorem prev_withEnv (e : HostSide) : (s.withEnv e).prev = s.prev := rfl
@[simp] theorem havePrev_withEnv (e : HostSide) : (s.withEnv e).havePrev = s.havePrev := rfl
@[simp] theorem fipsLast32_withEnv (e : HostSide) : (s.withEnv e).fipsLast32 = s.fipsLast32 := rfl
@[simp] theorem lastMask_withEnv (e : HostSide) : (s.withEnv e).lastMask = s.lastMask := rfl
@[simp] theorem keyreg_withEnv (e : HostSide) : (s.withEnv e).keyreg = s.keyreg := rfl
@[simp] theorem out_withEnv (e : HostSide) : (s.withEnv e).out = s.out := rfl
@[simp] theorem evt_withEnv (e : HostSide) : (s.withEnv e).evt = s.evt := rfl
@[simp] theorem pushes_withEnv (e : HostSide) : (s.withEnv e).pushes = s.pushes := rfl
@[simp] theorem env_withEnv (e : HostSide) : (s.withEnv e).env = e := rfl

/-! ## The state after reset -/

@[simp] theorem mode_afterReset (C : Config) (m : Mode) (e : HostSide) : (afterReset C m e).mode = m := rfl
@[simp] theorem acc_afterReset (C : Config) (m : Mode) (e : HostSide) : (afterReset C m e).acc = [] := rfl
@[simp] theorem bitcnt_afterReset (C : Config) (m : Mode) (e : HostSide) : (afterReset C m e).bitcnt = 0 := rfl
@[simp] theorem bytecnt_afterReset (C : Config) (m : Mode) (e : HostSide) : (afterReset C m e).bytecnt = 0 := rfl
@[simp] theorem hbuf_afterReset (C : Config) (m : Mode) (e : HostSide) : (afterReset C m e).hbuf = [] := rfl
@[simp] theorem hpos_afterReset (C : Config) (m : Mode) (e : HostSide) : (afterReset C m e).hpos = 0 := rfl
@[simp] theorem hashReady_afterReset (C : Config) (m : Mode) (e : HostSide) : (afterReset C m e).hashReady = false := rfl
@[simp] theorem prev_afterReset (C : Config) (m : Mode) (e : HostSide) : (afterReset C m e).prev = [] := rfl
@[simp] theorem havePrev_afterReset (C : Config) (m : Mode) (e : HostSide) : (afterReset C m e).havePrev = false := rfl
@[simp] theorem fipsLast32_afterReset (C : Config) (m : Mode) (e : HostSide) : (afterReset C m e).fipsLast32 = C.fipsSeed := rfl
@[simp] theorem lastMask_afterReset (C : Config) (m : Mode) (e : HostSide) : (afterReset C m e).lastMask = 0 := rfl
@[simp] theorem keyreg_afterReset (C : Config) (m : Mode) (e : HostSide) : (afterReset C m e).keyreg = [] := rfl
@[simp] theorem out_afterReset (C : Config) (m : Mode) (e : HostSide) : (afterReset C m e).out = [] := rfl
@[simp] theorem evt_afterReset (C : Config) (m : Mode) (e : HostSide) : (afterReset C m e).evt = [] := rfl
@[simp] theorem pushes_afterReset (C : Config) (m : Mode) (e : HostSide) : (afterReset C m e).pushes = 0 := rfl
@[simp] theorem env_afterReset (C : Config) (m : Mode) (e : HostSide) : (afterReset C m e).env = e := rfl

/-- Two states with the same elements are the same state. -/
theorem ext_fields {s t : State} (h0 : s.mode = t.mode) (h1 : s.acc = t.acc) (h2 : s.bitcnt = t.bitcnt) (h3 : s.bytecnt = t.bytecnt) (h4 : s.hbuf = t.hbuf) (h5 : s.hpos = t.hpos) (h6 : s.hashReady = t.hashReady) (h7 : s.prev = t.prev) (h8 : s.havePrev = t.havePrev) (h9 : s.fipsLast32 = t.fipsLast32) (h10 : s.lastMask = t.lastMask) (h11 : s.keyreg = t.keyreg) (h12 : s.out = t.out) (h13 : s.evt = t.evt) (h14 : s.pushes = t.pushes) (h15 : s.env = t.env) : s = t := by
  cases s; cases t; simp_all

end Sys2Proof.Machine.State
end

