-- ==== Sys2Proof/Laws/Ops.lean ====
section
/-! SUPPORT. What each shared operation of the core can do, said once: the conditioner, a block completion, an output
bit, a rejected bit. -/

namespace Sys2Proof.Machine

/-! ## Ports -/

@[simp] theorem emit_eq (s : State) (bs : List Byte) : s.emit bs = s.withOut (s.out ++ bs) := rfl

@[simp] theorem logEvent_eq (s : State) (c : EventCode) (k : BitVec 5) :
    s.logEvent c k = s.withEvt (s.evt ++ [{ code := c, mask := k }]) := rfl

/-! ## Conditioner -/

theorem xorCondition_first {s : State} (B : List Byte) (h : s.havePrev = false) :
    xorCondition B s = (s.withEvt (s.evt ++ [{ code := .retain, mask := 0 }])).withPrev (Mem.ofBytes B) true := by
  simp [xorCondition, h]

theorem xorCondition_later {s : State} (B : List Byte) (h : s.havePrev = true) :
    xorCondition B s = ((s.withOut (s.out ++ xorBlock B s.prev)).withEvt
      (s.evt ++ [{ code := .emitXor, mask := 0 }])).withPrev (Mem.ofBytes B) true := by
  simp [xorCondition, h]

/-- The emission of AES mode for a block (R195): the ciphertext under the key and IV of the digest. -/
def ciphertext (C : Config) (hb : Mem) (B : List Byte) : List Byte :=
  let ki := C.keySplit (C.sha512 (hb.bytes C.hashBytes)).toList
  cbcEnc C ki.1 ki.2 (pkcs7 B)

/-- What AES_ENCRYPT_EMIT leaves: the ciphertext emitted, one event, KEYREG zeroed. -/
theorem aesEncryptEmit_eq (C : Config) (B : List Byte) (s : State) :
    aesEncryptEmit C B s = ((s.withOut (s.out ++ ciphertext C s.hbuf B)).withEvt
      (s.evt ++ [{ code := .emitAes, mask := 0 }])).withKeyreg [] := by
  have hk : (Mem.ofBytes (digest C s).toList).bytes keyBytes = (digest C s).toList :=
    Mem.bytes_ofBytes (by simp)
  simp only [aesEncryptEmit, destroyKey, emit_eq, logEvent_eq]
  rw [show (s.withKeyreg (Mem.ofBytes (digest C s).toList)).keyreg = Mem.ofBytes (digest C s).toList from rfl, hk]
  rfl

theorem aesCondition_drop {C : Config} {s : State} (B : List Byte) (h : s.hashReady = false) :
    aesCondition C B s = s.withEvt (s.evt ++ [{ code := .warmupDrop, mask := 0 }]) := by
  simp [aesCondition, h]

theorem aesCondition_emit {C : Config} {s : State} (B : List Byte) (h : s.hashReady = true) :
    aesCondition C B s = ((s.withOut (s.out ++ ciphertext C s.hbuf B)).withEvt
      (s.evt ++ [{ code := .emitAes, mask := 0 }])).withKeyreg [] := by
  simp only [aesCondition, h, if_true, aesEncryptEmit_eq]

@[simp] theorem length_xorBytes (a b : List Byte) : (xorBytes a b).length = min a.length b.length := by
  simp [xorBytes]

theorem length_xorBlock {B : List Byte} (prev : Mem) (h : B.length = 2500) :
    (xorBlock B prev).length = 2500 := by
  simp [xorBlock, h]

theorem length_cbcBlocks (enc : Block16 → Block16) (n : Nat) (c : Block16) (P : List Byte) :
    (cbcBlocks enc n c P).length = 16 * n := by
  induction n generalizing c P with
  | zero => rfl
  | succ n ih => simp [cbcBlocks, ih]; omega

theorem length_pkcs7 (m : List Byte) : (pkcs7 m).length = m.length + (16 - m.length % 16) := by
  simp [pkcs7]

/-- An AES-mode emission has CIPHER_BYTES bytes (R14, R198). -/
theorem length_ciphertext {C : Config} {hb : Mem} {B : List Byte} (h : B.length = 2500) :
    (ciphertext C hb B).length = 2512 := by
  simp only [ciphertext, cbcEnc, length_cbcBlocks, length_pkcs7, h]

/-! ## A block completion -/

@[simp] theorem length_completedBlock (s : State) : (completedBlock s).length = 2500 := by
  simp [completedBlock]

/-- The one of five things that happens to a completed block (R125, R214). -/
theorem disposeBlock_cases (C : Config) (B : List Byte) (k : BitVec 5) (s : State) :
    (k ≠ 0 ∧ disposeBlock C B k s = s.withEvt (s.evt ++ [{ code := .fipsFail, mask := k }])) ∨
    (k = 0 ∧ s.mode = .xor ∧ s.havePrev = false ∧ disposeBlock C B k s =
      (s.withEvt (s.evt ++ [{ code := .retain, mask := 0 }])).withPrev (Mem.ofBytes B) true) ∨
    (k = 0 ∧ s.mode = .xor ∧ s.havePrev = true ∧ disposeBlock C B k s =
      ((s.withOut (s.out ++ xorBlock B s.prev)).withEvt
        (s.evt ++ [{ code := .emitXor, mask := 0 }])).withPrev (Mem.ofBytes B) true) ∨
    (k = 0 ∧ s.mode = .aes ∧ s.hashReady = false ∧ disposeBlock C B k s =
      s.withEvt (s.evt ++ [{ code := .warmupDrop, mask := 0 }])) ∨
    (k = 0 ∧ s.mode = .aes ∧ s.hashReady = true ∧ disposeBlock C B k s =
      ((s.withOut (s.out ++ ciphertext C s.hbuf B)).withEvt
        (s.evt ++ [{ code := .emitAes, mask := 0 }])).withKeyreg []) := by
  by_cases hk : k = 0
  · cases hm : s.mode with
    | xor =>
      cases hp : s.havePrev with
      | false => exact .inr (.inl ⟨hk, rfl, rfl, by simp [disposeBlock, hk, hm, xorCondition_first B hp]⟩)
      | true => exact .inr (.inr (.inl ⟨hk, rfl, rfl, by simp [disposeBlock, hk, hm, xorCondition_later B hp]⟩))
    | aes =>
      cases hr : s.hashReady with
      | false =>
        exact .inr (.inr (.inr (.inl ⟨hk, rfl, rfl, by simp [disposeBlock, hk, hm, aesCondition_drop B hr]⟩)))
      | true =>
        exact .inr (.inr (.inr (.inr ⟨hk, rfl, rfl, by simp [disposeBlock, hk, hm, aesCondition_emit B hr]⟩)))
  · exact .inl ⟨hk, by rw [disposeBlock, if_pos hk, logEvent_eq]⟩

/-- No disposal touches what the extractor and the debiaser work on, or the host. -/
theorem disposeBlock_frame (C : Config) (B : List Byte) (k : BitVec 5) (s : State) :
    (disposeBlock C B k s).mode = s.mode ∧ (disposeBlock C B k s).hbuf = s.hbuf ∧
    (disposeBlock C B k s).hpos = s.hpos ∧ (disposeBlock C B k s).hashReady = s.hashReady ∧
    (disposeBlock C B k s).pushes = s.pushes ∧ (disposeBlock C B k s).env = s.env ∧
    (disposeBlock C B k s).fipsLast32 = s.fipsLast32 ∧ (disposeBlock C B k s).lastMask = s.lastMask := by
  rcases disposeBlock_cases C B k s with ⟨_, h⟩ | ⟨_, _, _, h⟩ | ⟨_, _, _, h⟩ | ⟨_, _, _, h⟩ | ⟨_, _, _, h⟩ <;>
    simp [h]

/-- A disposal logs exactly one event (R78, R125). -/
theorem disposeBlock_logs_one (C : Config) (B : List Byte) (k : BitVec 5) (s : State) :
    ∃ e, (disposeBlock C B k s).evt = s.evt ++ [e] := by
  rcases disposeBlock_cases C B k s with ⟨_, h⟩ | ⟨_, _, _, h⟩ | ⟨_, _, _, h⟩ | ⟨_, _, _, h⟩ | ⟨_, _, _, h⟩ <;>
    exact ⟨_, by rw [h]; rfl⟩

/-- The verdict on the block that `s` completes. -/
def verdict (C : Config) (s : State) : BitVec 5 × Word32 := fipsTest C (completedBlock s) s.fipsLast32

/-- A completion, with the verdict named. -/
theorem blockComplete_eq (C : Config) (s : State) :
    blockComplete C s = ((disposeBlock C (completedBlock s) (verdict C s).1
      (s.withVerdict (verdict C s).2 (verdict C s).1)).withPos 0 0).withAcc [] := rfl

@[simp] theorem blockComplete_acc (C : Config) (s : State) : (blockComplete C s).acc = [] := rfl
@[simp] theorem blockComplete_bitcnt (C : Config) (s : State) : (blockComplete C s).bitcnt = 0 := rfl
@[simp] theorem blockComplete_bytecnt (C : Config) (s : State) : (blockComplete C s).bytecnt = 0 := rfl

@[simp] theorem blockComplete_mode (C : Config) (s : State) : (blockComplete C s).mode = s.mode := by
  simp [blockComplete_eq, (disposeBlock_frame C _ _ _).1]

@[simp] theorem blockComplete_hbuf (C : Config) (s : State) : (blockComplete C s).hbuf = s.hbuf := by
  simp [blockComplete_eq, (disposeBlock_frame C _ _ _).2.1]

@[simp] theorem blockComplete_hpos (C : Config) (s : State) : (blockComplete C s).hpos = s.hpos := by
  simp [blockComplete_eq, (disposeBlock_frame C _ _ _).2.2.1]

@[simp] theorem blockComplete_hashReady (C : Config) (s : State) : (blockComplete C s).hashReady = s.hashReady := by
  simp [blockComplete_eq, (disposeBlock_frame C _ _ _).2.2.2.1]

@[simp] theorem blockComplete_pushes (C : Config) (s : State) : (blockComplete C s).pushes = s.pushes := by
  simp [blockComplete_eq, (disposeBlock_frame C _ _ _).2.2.2.2.1]

@[simp] theorem blockComplete_env (C : Config) (s : State) : (blockComplete C s).env = s.env := by
  simp [blockComplete_eq, (disposeBlock_frame C _ _ _).2.2.2.2.2.1]

@[simp] theorem blockComplete_fipsLast32 (C : Config) (s : State) :
    (blockComplete C s).fipsLast32 = (verdict C s).2 := by
  simp [blockComplete_eq, (disposeBlock_frame C _ _ _).2.2.2.2.2.2.1]

@[simp] theorem blockComplete_lastMask (C : Config) (s : State) :
    (blockComplete C s).lastMask = (verdict C s).1 := by
  simp [blockComplete_eq, (disposeBlock_frame C _ _ _).2.2.2.2.2.2.2]

/-- The five outcomes of a disposal as far as PREV, HAVE_PREV, KEYREG, OUT and EVT are concerned. -/
theorem disposeBlock_fields (C : Config) (B : List Byte) (k : BitVec 5) (s : State) :
    (k ≠ 0 ∧ (disposeBlock C B k s).prev = s.prev ∧ (disposeBlock C B k s).havePrev = s.havePrev ∧
      (disposeBlock C B k s).keyreg = s.keyreg ∧ (disposeBlock C B k s).out = s.out ∧
      (disposeBlock C B k s).evt = s.evt ++ [{ code := .fipsFail, mask := k }]) ∨
    (k = 0 ∧ s.mode = .xor ∧ s.havePrev = false ∧ (disposeBlock C B k s).prev = Mem.ofBytes B ∧
      (disposeBlock C B k s).havePrev = true ∧ (disposeBlock C B k s).keyreg = s.keyreg ∧
      (disposeBlock C B k s).out = s.out ∧ (disposeBlock C B k s).evt = s.evt ++ [{ code := .retain, mask := 0 }]) ∨
    (k = 0 ∧ s.mode = .xor ∧ s.havePrev = true ∧ (disposeBlock C B k s).prev = Mem.ofBytes B ∧
      (disposeBlock C B k s).havePrev = true ∧ (disposeBlock C B k s).keyreg = s.keyreg ∧
      (disposeBlock C B k s).out = s.out ++ xorBlock B s.prev ∧
      (disposeBlock C B k s).evt = s.evt ++ [{ code := .emitXor, mask := 0 }]) ∨
    (k = 0 ∧ s.mode = .aes ∧ s.hashReady = false ∧ (disposeBlock C B k s).prev = s.prev ∧
      (disposeBlock C B k s).havePrev = s.havePrev ∧ (disposeBlock C B k s).keyreg = s.keyreg ∧
      (disposeBlock C B k s).out = s.out ∧
      (disposeBlock C B k s).evt = s.evt ++ [{ code := .warmupDrop, mask := 0 }]) ∨
    (k = 0 ∧ s.mode = .aes ∧ s.hashReady = true ∧ (disposeBlock C B k s).prev = s.prev ∧
      (disposeBlock C B k s).havePrev = s.havePrev ∧ (disposeBlock C B k s).keyreg = [] ∧
      (disposeBlock C B k s).out = s.out ++ ciphertext C s.hbuf B ∧
      (disposeBlock C B k s).evt = s.evt ++ [{ code := .emitAes, mask := 0 }]) := by
  rcases disposeBlock_cases C B k s with
    ⟨hk, h⟩ | ⟨hk, hm, hp, h⟩ | ⟨hk, hm, hp, h⟩ | ⟨hk, hm, hr, h⟩ | ⟨hk, hm, hr, h⟩ <;> rw [h]
  · exact .inl ⟨hk, rfl, rfl, rfl, rfl, rfl⟩
  · exact .inr (.inl ⟨hk, hm, hp, rfl, rfl, rfl, rfl, rfl⟩)
  · exact .inr (.inr (.inl ⟨hk, hm, hp, rfl, rfl, rfl, rfl, rfl⟩))
  · exact .inr (.inr (.inr (.inl ⟨hk, hm, hr, rfl, rfl, rfl, rfl, rfl⟩)))
  · exact .inr (.inr (.inr (.inr ⟨hk, hm, hr, rfl, rfl, rfl, rfl, rfl⟩)))

/-- The five outcomes of a completion as far as PREV, HAVE_PREV, KEYREG, OUT and EVT are concerned (R125, R127, R181,
R190, R195). -/
theorem blockComplete_cases (C : Config) (s : State) :
    ((verdict C s).1 ≠ 0 ∧ (blockComplete C s).prev = s.prev ∧ (blockComplete C s).havePrev = s.havePrev ∧
      (blockComplete C s).keyreg = s.keyreg ∧ (blockComplete C s).out = s.out ∧
      (blockComplete C s).evt = s.evt ++ [{ code := .fipsFail, mask := (verdict C s).1 }]) ∨
    ((verdict C s).1 = 0 ∧ s.mode = .xor ∧ s.havePrev = false ∧
      (blockComplete C s).prev = Mem.ofBytes (completedBlock s) ∧ (blockComplete C s).havePrev = true ∧
      (blockComplete C s).keyreg = s.keyreg ∧ (blockComplete C s).out = s.out ∧
      (blockComplete C s).evt = s.evt ++ [{ code := .retain, mask := 0 }]) ∨
    ((verdict C s).1 = 0 ∧ s.mode = .xor ∧ s.havePrev = true ∧
      (blockComplete C s).prev = Mem.ofBytes (completedBlock s) ∧ (blockComplete C s).havePrev = true ∧
      (blockComplete C s).keyreg = s.keyreg ∧
      (blockComplete C s).out = s.out ++ xorBlock (completedBlock s) s.prev ∧
      (blockComplete C s).evt = s.evt ++ [{ code := .emitXor, mask := 0 }]) ∨
    ((verdict C s).1 = 0 ∧ s.mode = .aes ∧ s.hashReady = false ∧ (blockComplete C s).prev = s.prev ∧
      (blockComplete C s).havePrev = s.havePrev ∧ (blockComplete C s).keyreg = s.keyreg ∧
      (blockComplete C s).out = s.out ∧ (blockComplete C s).evt = s.evt ++ [{ code := .warmupDrop, mask := 0 }]) ∨
    ((verdict C s).1 = 0 ∧ s.mode = .aes ∧ s.hashReady = true ∧ (blockComplete C s).prev = s.prev ∧
      (blockComplete C s).havePrev = s.havePrev ∧ (blockComplete C s).keyreg = [] ∧
      (blockComplete C s).out = s.out ++ ciphertext C s.hbuf (completedBlock s) ∧
      (blockComplete C s).evt = s.evt ++ [{ code := .emitAes, mask := 0 }]) := by
  have h := disposeBlock_fields C (completedBlock s) (verdict C s).1 (s.withVerdict (verdict C s).2 (verdict C s).1)
  simp only [State.prev_withVerdict, State.havePrev_withVerdict, State.keyreg_withVerdict, State.out_withVerdict,
    State.evt_withVerdict, State.mode_withVerdict, State.hashReady_withVerdict, State.hbuf_withVerdict] at h
  simp only [blockComplete_eq, State.prev_withAcc, State.prev_withPos, State.havePrev_withAcc, State.havePrev_withPos,
    State.keyreg_withAcc, State.keyreg_withPos, State.out_withAcc, State.out_withPos, State.evt_withAcc,
    State.evt_withPos]
  exact h

/-- Every completion logs exactly one event. -/
theorem blockComplete_logs_one (C : Config) (s : State) : ∃ e, (blockComplete C s).evt = s.evt ++ [e] := by
  simpa [blockComplete_eq] using
    disposeBlock_logs_one C (completedBlock s) (verdict C s).1 (s.withVerdict (verdict C s).2 (verdict C s).1)

/-! ## An output bit -/

/-- The state with the bit in ACC and the counters advanced, before the completion check. -/
def appended (x : Bool) (s : State) : State := byteWrap (appendBit x s)

theorem outputBit_eq (C : Config) (x : Bool) (s : State) : outputBit C x s = completionCheck C (appended x s) := rfl

/-- The append and the byte wrap, written out (R120, R121). -/
theorem appended_eq (x : Bool) (s : State) :
    appended x s = (s.withAcc (s.acc.write s.bytecnt (orBit (s.acc.read s.bytecnt) s.bitcnt x))).withPos
      (if s.bitcnt = 7 then 0 else s.bitcnt + 1) (if s.bitcnt = 7 then s.bytecnt + 1 else s.bytecnt) := by
  unfold appended byteWrap appendBit
  by_cases h : s.bitcnt = 7
  · rw [if_pos (by simp [h]), if_pos h, if_pos h]; rfl
  · rw [if_neg (by simp; omega), if_neg h, if_neg h]

/-! An append touches ACC and the counters only. -/

@[simp] theorem appended_mode (x : Bool) (s : State) : (appended x s).mode = s.mode := by rw [appended_eq]; rfl
@[simp] theorem appended_hbuf (x : Bool) (s : State) : (appended x s).hbuf = s.hbuf := by rw [appended_eq]; rfl
@[simp] theorem appended_hpos (x : Bool) (s : State) : (appended x s).hpos = s.hpos := by rw [appended_eq]; rfl
@[simp] theorem appended_hashReady (x : Bool) (s : State) : (appended x s).hashReady = s.hashReady := by rw [appended_eq]; rfl
@[simp] theorem appended_prev (x : Bool) (s : State) : (appended x s).prev = s.prev := by rw [appended_eq]; rfl
@[simp] theorem appended_havePrev (x : Bool) (s : State) : (appended x s).havePrev = s.havePrev := by rw [appended_eq]; rfl
@[simp] theorem appended_fipsLast32 (x : Bool) (s : State) : (appended x s).fipsLast32 = s.fipsLast32 := by rw [appended_eq]; rfl
@[simp] theorem appended_lastMask (x : Bool) (s : State) : (appended x s).lastMask = s.lastMask := by rw [appended_eq]; rfl
@[simp] theorem appended_keyreg (x : Bool) (s : State) : (appended x s).keyreg = s.keyreg := by rw [appended_eq]; rfl
@[simp] theorem appended_out (x : Bool) (s : State) : (appended x s).out = s.out := by rw [appended_eq]; rfl
@[simp] theorem appended_evt (x : Bool) (s : State) : (appended x s).evt = s.evt := by rw [appended_eq]; rfl
@[simp] theorem appended_pushes (x : Bool) (s : State) : (appended x s).pushes = s.pushes := by rw [appended_eq]; rfl
@[simp] theorem appended_env (x : Bool) (s : State) : (appended x s).env = s.env := by rw [appended_eq]; rfl

@[simp] theorem appended_acc (x : Bool) (s : State) :
    (appended x s).acc = s.acc.write s.bytecnt (orBit (s.acc.read s.bytecnt) s.bitcnt x) := by rw [appended_eq]; rfl

@[simp] theorem appended_bitcnt (x : Bool) (s : State) :
    (appended x s).bitcnt = if s.bitcnt = 7 then 0 else s.bitcnt + 1 := by rw [appended_eq]; rfl

@[simp] theorem appended_bytecnt (x : Bool) (s : State) :
    (appended x s).bytecnt = if s.bitcnt = 7 then s.bytecnt + 1 else s.bytecnt := by rw [appended_eq]; rfl

/-- An output bit that is not the last of its block. -/
theorem outputBit_open {C : Config} {x : Bool} {s : State}
    (h : ¬(s.bitcnt = 7 ∧ s.bytecnt = 2499)) (hb : s.bytecnt < 2500) :
    outputBit C x s = (s.withAcc (s.acc.write s.bytecnt (orBit (s.acc.read s.bytecnt) s.bitcnt x))).withPos
      (if s.bitcnt = 7 then 0 else s.bitcnt + 1) (if s.bitcnt = 7 then s.bytecnt + 1 else s.bytecnt) := by
  rw [outputBit_eq, completionCheck, if_neg, appended_eq]
  rw [appended_eq]
  simp only [State.bytecnt_withPos, blockBytes]
  split <;> omega

/-- The last output bit of a block. -/
theorem outputBit_closing {C : Config} {x : Bool} {s : State} (h : s.bitcnt = 7 ∧ s.bytecnt = 2499) :
    outputBit C x s = blockComplete C (appended x s) := by
  rw [outputBit_eq, completionCheck, if_pos]
  rw [appended_eq]
  simp [h.1, h.2]

/-- The two things an output bit can do, from counters in range. -/
theorem outputBit_cases (C : Config) (x : Bool) {s : State} (hb : s.bytecnt < 2500) :
    (¬(s.bitcnt = 7 ∧ s.bytecnt = 2499) ∧ outputBit C x s = appended x s) ∨
    ((s.bitcnt = 7 ∧ s.bytecnt = 2499) ∧ outputBit C x s = blockComplete C (appended x s)) := by
  by_cases h : s.bitcnt = 7 ∧ s.bytecnt = 2499
  · exact .inr ⟨h, outputBit_closing h⟩
  · exact .inl ⟨h, by rw [outputBit_open h hb, appended_eq]⟩

/-- An output bit from any counters either appends or appends and completes. -/
theorem outputBit_or (C : Config) (x : Bool) (s : State) :
    outputBit C x s = appended x s ∨ outputBit C x s = blockComplete C (appended x s) := by
  rw [outputBit_eq, completionCheck]
  split
  · exact .inr rfl
  · exact .inl rfl

@[simp] theorem outputBit_mode (C : Config) (x : Bool) (s : State) : (outputBit C x s).mode = s.mode := by
  rcases outputBit_or C x s with h | h <;> simp [h]

@[simp] theorem outputBit_hbuf (C : Config) (x : Bool) (s : State) : (outputBit C x s).hbuf = s.hbuf := by
  rcases outputBit_or C x s with h | h <;> simp [h]

@[simp] theorem outputBit_hpos (C : Config) (x : Bool) (s : State) : (outputBit C x s).hpos = s.hpos := by
  rcases outputBit_or C x s with h | h <;> simp [h]

@[simp] theorem outputBit_hashReady (C : Config) (x : Bool) (s : State) :
    (outputBit C x s).hashReady = s.hashReady := by
  rcases outputBit_or C x s with h | h <;> simp [h]

@[simp] theorem outputBit_pushes (C : Config) (x : Bool) (s : State) : (outputBit C x s).pushes = s.pushes := by
  rcases outputBit_or C x s with h | h <;> simp [h]

@[simp] theorem outputBit_env (C : Config) (x : Bool) (s : State) : (outputBit C x s).env = s.env := by
  rcases outputBit_or C x s with h | h <;> simp [h]

/-! ## A rejected bit -/

/-- A push, written out with the packing of D5 (R130, R131). -/
theorem rejectBit_spec (x : Bool) (s : State) :
    rejectBit specConfig x s = s.withHash
      (s.hbuf.write (s.hpos / 8) (putBit (s.hbuf.read (s.hpos / 8)) (s.hpos % 8) x))
      (if s.hpos = 19999 then 0 else s.hpos + 1)
      (s.hashReady || decide (s.hpos = 19999)) (s.pushes + 1) := rfl

/-- A push leaves everything but HBUF, HPOS, HASH_READY and the push counter alone. -/
theorem rejectBit_frame (C : Config) (x : Bool) (s : State) :
    rejectBit C x s = s.withHash (rejectBit C x s).hbuf (rejectBit C x s).hpos (rejectBit C x s).hashReady
      (s.pushes + 1) := rfl

@[simp] theorem rejectBit_mode (C : Config) (x : Bool) (s : State) : (rejectBit C x s).mode = s.mode := rfl
@[simp] theorem rejectBit_acc (C : Config) (x : Bool) (s : State) : (rejectBit C x s).acc = s.acc := rfl
@[simp] theorem rejectBit_bitcnt (C : Config) (x : Bool) (s : State) : (rejectBit C x s).bitcnt = s.bitcnt := rfl
@[simp] theorem rejectBit_bytecnt (C : Config) (x : Bool) (s : State) : (rejectBit C x s).bytecnt = s.bytecnt := rfl
@[simp] theorem rejectBit_prev (C : Config) (x : Bool) (s : State) : (rejectBit C x s).prev = s.prev := rfl
@[simp] theorem rejectBit_havePrev (C : Config) (x : Bool) (s : State) : (rejectBit C x s).havePrev = s.havePrev := rfl
@[simp] theorem rejectBit_fipsLast32 (C : Config) (x : Bool) (s : State) :
    (rejectBit C x s).fipsLast32 = s.fipsLast32 := rfl
@[simp] theorem rejectBit_lastMask (C : Config) (x : Bool) (s : State) : (rejectBit C x s).lastMask = s.lastMask := rfl
@[simp] theorem rejectBit_keyreg (C : Config) (x : Bool) (s : State) : (rejectBit C x s).keyreg = s.keyreg := rfl
@[simp] theorem rejectBit_out (C : Config) (x : Bool) (s : State) : (rejectBit C x s).out = s.out := rfl
@[simp] theorem rejectBit_evt (C : Config) (x : Bool) (s : State) : (rejectBit C x s).evt = s.evt := rfl
@[simp] theorem rejectBit_pushes (C : Config) (x : Bool) (s : State) : (rejectBit C x s).pushes = s.pushes + 1 := rfl
@[simp] theorem rejectBit_env (C : Config) (x : Bool) (s : State) : (rejectBit C x s).env = s.env := rfl

/-! ## The four classes -/

/-- A class runs an output bit or a rejected bit of its `x` (R101). -/
theorem runClass_eq_pairStep (C : Config) (p : PairClass) (s : State) :
    runClass C p s = pairStep C (pairX p) (pairY p) s := by
  cases p <;> rfl

end Sys2Proof.Machine
end

