-- ==== Sys2Proof/Laws/PerInstr.lean ====
section
/-! SUPPORT. Statements about every instruction as syntax, one lemma per constructor. -/

namespace Sys2Proof.Laws

/-- The length and the value of a word, numbered as opcode_table.json numbers its bits. -/
def wordBits : InWord → Nat × Nat
  | .s8 b => (8, b.toNat)
  | .p2 p => (2, p.toNat)

/-- A row of opcode_table.json: its length, its mask and its match. -/
structure Row where
  nbits : Nat
  mask  : Nat
  value : Nat
  deriving DecidableEq, Repr

/-- The row of an instruction, copied from the table. -/
def rowOf : Instr → Row
  | .sample _ _ _ _ => { nbits := 8, mask := 0x00, value := 0x00 }
  | .vnRej0 => { nbits := 2, mask := 0b11, value := 0b00 }
  | .vnOut1 => { nbits := 2, mask := 0b11, value := 0b01 }
  | .vnOut0 => { nbits := 2, mask := 0b11, value := 0b10 }
  | .vnRej1 => { nbits := 2, mask := 0b11, value := 0b11 }

/-- The word of an instruction has its row's length, matches it under its mask, and is read back by the decoder. -/
def MatchesRow.Statement (i : Instr) : Prop :=
  (wordBits (encode i)).1 = (rowOf i).nbits ∧ (wordBits (encode i)).2 &&& (rowOf i).mask = (rowOf i).value ∧
    decodeTableWord (rowOf i).nbits (wordBits (encode i)).2 = some i

theorem MatchesRow.sample (p0 p1 p2 : PairClass) (ign : BitVec 2) : MatchesRow.Statement (.sample p0 p1 p2 ign) := by
  have h : ∀ ign : BitVec 2, MatchesRow.Statement (.sample p0 p1 p2 ign) := by
    unfold MatchesRow.Statement
    cases p0 <;> cases p1 <;> cases p2 <;> decide
  exact h ign

theorem MatchesRow.vnRej0 : MatchesRow.Statement .vnRej0 := by unfold MatchesRow.Statement; decide

theorem MatchesRow.vnOut1 : MatchesRow.Statement .vnOut1 := by unfold MatchesRow.Statement; decide

theorem MatchesRow.vnOut0 : MatchesRow.Statement .vnOut0 := by unfold MatchesRow.Statement; decide

theorem MatchesRow.vnRej1 : MatchesRow.Statement .vnRej1 := by unfold MatchesRow.Statement; decide

end Sys2Proof.Laws
end

