-- ==== Sys2Proof/Laws/Step.lean ====
section
/-! SUPPORT. What exec and step can do, said once, and the packaged argument that what every pair step keeps, exec and
step keep. -/

namespace Sys2Proof.Machine

/-! ## exec -/

/-- The pair steps of a list of classes, in order. -/
def runClasses (C : Config) (ps : List PairClass) (s : State) : State :=
  ps.foldl (fun t p => runClass C p t) s

@[simp] theorem runClasses_nil (C : Config) (s : State) : runClasses C [] s = s := rfl

@[simp] theorem runClasses_step (C : Config) (p : PairClass) (ps : List PairClass) (s : State) :
    runClasses C (p :: ps) s = runClasses C ps (runClass C p s) := rfl

theorem runClasses_append (C : Config) (ps qs : List PairClass) (s : State) :
    runClasses C (ps ++ qs) s = runClasses C qs (runClasses C ps s) := by
  simp [runClasses]

/-- Every instruction answers a next state, the one its pair classes lead to. -/
theorem exec_eq (i : Instr) (s : State) : exec i s = .next (runClasses specConfig (instrClasses i) s) := by
  cases i <;> rfl

/-- What output bits and rejected bits keep, a list of pair steps keeps. -/
theorem runClasses_keeps {C : Config} {P : State → Prop} (hout : ∀ x s, P s → P (outputBit C x s))
    (hrej : ∀ x s, P s → P (rejectBit C x s)) (ps : List PairClass) {s : State} (h : P s) :
    P (runClasses C ps s) := by
  induction ps generalizing s with
  | nil => exact h
  | cons p ps ih =>
    apply ih
    cases p
    · exact hrej _ _ h
    · exact hout _ _ h
    · exact hout _ _ h
    · exact hrej _ _ h

/-- The same for a relation between two states that run the same pair steps. -/
theorem runClasses_keeps_rel {C : Config} {P : State → State → Prop}
    (hout : ∀ x s t, P s t → P (outputBit C x s) (outputBit C x t))
    (hrej : ∀ x s t, P s t → P (rejectBit C x s) (rejectBit C x t)) (ps : List PairClass) {s t : State} (h : P s t) :
    P (runClasses C ps s) (runClasses C ps t) := by
  induction ps generalizing s t with
  | nil => exact h
  | cons p ps ih =>
    apply ih
    cases p
    · exact hrej _ _ _ h
    · exact hout _ _ _ h
    · exact hout _ _ _ h
    · exact hrej _ _ _ h

@[simp] theorem runClasses_mode (C : Config) (ps : List PairClass) (s : State) : (runClasses C ps s).mode = s.mode :=
  runClasses_keeps (P := fun t => t.mode = s.mode) (fun _ _ h => by simpa using h) (fun _ _ h => by simpa using h)
    ps rfl

@[simp] theorem runClasses_env (C : Config) (ps : List PairClass) (s : State) : (runClasses C ps s).env = s.env :=
  runClasses_keeps (P := fun t => t.env = s.env) (fun _ _ h => by simpa using h) (fun _ _ h => by simpa using h)
    ps rfl

/-! ## The host -/

/-- What a step of the host can do: change the host side, moving the accepted bytes of OUT forward at most to its
end, or reset the core. -/
theorem hostStep_cases {C : Config} {s t : State} (h : hostStep C s = .next t) :
    (∃ e, t = s.withEnv e ∧ (e.taken = s.env.taken ∨ s.env.taken ≤ e.taken ∧ e.taken ≤ s.out.length)) ∨
    (∃ m rest e, s.env.port = .assertReset m :: rest ∧ t = State.afterReset C m e ∧ e.port = rest ∧ e.taken = 0 ∧
      e.phase = .running) := by
  have same : s = s.withEnv s.env := rfl
  unfold hostStep at h
  split at h
  · split at h
    · next a _ hp _ =>
      have hp : s.env.taken < s.out.length := by simpa [State.pending] using hp
      simp only [Host.Outcome.next.injEq] at h
      subst h
      cases a with
      | accept n => exact .inl ⟨_, rfl, .inr ⟨by show _ ≤ min _ _; omega, by show min _ _ ≤ _; omega⟩⟩
      | pipeError => exact .inl ⟨_, rfl, .inr ⟨Nat.le_of_lt hp, Nat.le_refl _⟩⟩
      | reopened => exact .inl ⟨_, rfl, .inl rfl⟩
      | reopenFailed => exact .inl ⟨_, rfl, .inl rfl⟩
    · unfold runningAct at h
      split at h
      · simp only [Host.Outcome.next.injEq] at h; subst h; exact .inl ⟨_, same, .inl rfl⟩
      · simp only [Host.Outcome.next.injEq] at h; subst h; exact .inl ⟨_, same, .inl rfl⟩
      · split at h
        · simp only [Host.Outcome.next.injEq] at h; subst h; exact .inl ⟨_, same, .inl rfl⟩
        · simp only [Host.Outcome.next.injEq] at h
          subst h
          unfold chunkRead
          split
          · exact .inl ⟨_, rfl, .inl rfl⟩
          · exact .inl ⟨_, rfl, .inl rfl⟩
      · next hq =>
        simp only [Host.Outcome.next.injEq] at h
        subst h
        exact .inr ⟨_, _, _, hq, rfl, congrArg List.tail hq, rfl, rfl⟩
      · simp only [Host.Outcome.next.injEq] at h; subst h; exact .inl ⟨_, rfl, .inl rfl⟩
      all_goals cases h
  · unfold readerGoneAct at h
    split at h
    · split at h <;> (simp only [Host.Outcome.next.injEq] at h; subst h)
      · exact .inl ⟨_, rfl, .inl rfl⟩
      · exact .inl ⟨_, rfl, .inl rfl⟩
      · exact .inl ⟨_, rfl, .inl rfl⟩
      · exact .inl ⟨_, rfl, .inl rfl⟩
      · exact .inl ⟨_, rfl, .inl rfl⟩
      · exact .inl ⟨_, same, .inl rfl⟩
    · simp only [Host.Outcome.next.injEq] at h; subst h; exact .inl ⟨_, rfl, .inl rfl⟩
  all_goals
    unfold stoppedAct at h
    split at h
    · simp only [Host.Outcome.next.injEq] at h; subst h; exact .inl ⟨_, same, .inl rfl⟩
    · cases h
    · cases h
    · next hq =>
      simp only [Host.Outcome.next.injEq] at h
      subst h
      exact .inr ⟨_, _, _, hq, rfl, congrArg List.tail hq, rfl, rfl⟩
    · simp only [Host.Outcome.next.injEq] at h
      subst h
      unfold terminateStopped
      split <;> exact .inl ⟨_, rfl, .inl rfl⟩
    · simp only [Host.Outcome.next.injEq] at h; subst h; exact .inl ⟨_, rfl, .inl rfl⟩
    all_goals cases h

/-! ## step -/

/-- Taking a sample changes the host side only, and nothing of what is pending or of its phase. -/
theorem takeSample_eq (s : State) :
    ∃ c p, s.takeSample = s.withEnv { s.env with chunk := c, port := p } := by
  unfold State.takeSample
  split
  · exact ⟨_, _, rfl⟩
  · exact ⟨_, _, rfl⟩

/-- When a sample is due, and from where it is taken. -/
theorem dueSample_cases {s : State} {b : Byte} (h : s.dueSample = some b) :
    s.env.phase = .running ∧ s.pending = false ∧
      ((∃ bs, s.env.chunk = b :: bs ∧ s.takeSample = s.withEnv { s.env with chunk := bs }) ∨
        ∃ rest, s.env.chunk = [] ∧ s.env.port = .present b :: rest ∧
          s.takeSample = s.withEnv { s.env with port := rest }) := by
  unfold State.dueSample at h
  split at h
  · next hp hn =>
    refine ⟨hp, hn, ?_⟩
    split at h
    · next c bs hc =>
      obtain rfl : c = b := Option.some.inj h
      exact .inl ⟨bs, hc, by unfold State.takeSample; rw [hc]⟩
    · next c rest hc hq =>
      obtain rfl : c = b := Option.some.inj h
      exact .inr ⟨rest, hc, hq, by unfold State.takeSample State.popPort; rw [hc, hq]; rfl⟩
    · cases h
  · cases h

/-- When no sample is due. -/
theorem dueSample_eq_none {s : State} (h : s.env.phase ≠ .running ∨ s.pending = true ∨
    (s.env.chunk = [] ∧ ∀ b rest, s.env.port ≠ .present b :: rest)) : s.dueSample = none := by
  cases hd : s.dueSample with
  | none => rfl
  | some b =>
    obtain ⟨hp, hn, hc⟩ := dueSample_cases hd
    rcases h with h | h | ⟨h1, h2⟩
    · exact absurd hp h
    · rw [hn] at h; cases h
    · rcases hc with ⟨bs, hc, _⟩ | ⟨rest, _, hq, _⟩
      · rw [h1] at hc; cases hc
      · exact absurd hq (h2 b rest)

/-- The sample that is due is run whole. -/
theorem step_of_due {s : State} {b : Byte} (h : s.dueSample = some b) :
    step s = exec (decodeWord (.s8 b)) s.takeSample := by
  simp only [step, h]

theorem step_of_not_due {s : State} (h : s.dueSample = none) : step s = hostStep specConfig s := by
  simp only [step, h]

/-- The three things a step can do. -/
theorem step_cases {s t : State} (h : step s = .next t) :
    (∃ b, s.dueSample = some b ∧ t = runClasses specConfig (sampleClasses b) s.takeSample) ∨
    (∃ e, t = s.withEnv e ∧ (e.taken = s.env.taken ∨ s.env.taken ≤ e.taken ∧ e.taken ≤ s.out.length)) ∨
    (∃ m rest e, s.env.port = .assertReset m :: rest ∧ t = State.afterReset specConfig m e ∧ e.port = rest ∧
      e.taken = 0 ∧ e.phase = .running) := by
  cases hd : s.dueSample with
  | some b =>
    rw [step_of_due hd, exec_eq] at h
    simp only [Host.Outcome.next.injEq] at h
    exact .inl ⟨b, rfl, h.symm⟩
  | none =>
    rw [step_of_not_due hd] at h
    exact .inr (hostStep_cases h)

/-- What output bits, rejected bits and the host keep and a reset establishes, every step keeps. -/
theorem step_keeps {P : State → Prop} (hout : ∀ x s, P s → P (outputBit specConfig x s))
    (hrej : ∀ x s, P s → P (rejectBit specConfig x s)) (henv : ∀ s e, P s → P (s.withEnv e))
    (hreset : ∀ m e, P (State.afterReset specConfig m e)) {s t : State} (hs : P s) (h : step s = .next t) : P t := by
  rcases step_cases h with ⟨b, _, rfl⟩ | ⟨e, rfl, _⟩ | ⟨m, rest, e, _, rfl, _⟩
  · obtain ⟨c, p, hq⟩ := takeSample_eq s
    rw [hq]
    exact runClasses_keeps hout hrej _ (henv _ _ hs)
  · exact henv _ _ hs
  · exact hreset m e

end Sys2Proof.Machine
end

