-- ==== Sys2Proof/Laws/Streams.lean ====
section
/-! SUPPORT. Runs of samples as lists of pair classes, and the small lemmas of the streams and of the reference for
XOR mode. -/

namespace Sys2Proof.Machine

/-! ## Samples and their classes -/

theorem afterSamples_eq (bs : List Byte) (s : State) :
    afterSamples bs s = runClasses specConfig (bs.flatMap sampleClasses) s := by
  induction bs generalizing s with
  | nil => rfl
  | cons b bs ih =>
    rw [List.flatMap_cons, runClasses_append, ← ih]
    rfl

theorem outputBits_append (ps qs : List PairClass) : outputBits (ps ++ qs) = outputBits ps ++ outputBits qs := by
  simp [outputBits]

theorem rejectedBits_append (ps qs : List PairClass) :
    rejectedBits (ps ++ qs) = rejectedBits ps ++ rejectedBits qs := by
  simp [rejectedBits]

theorem outStream_eq (bs : List Byte) : outStream bs = outputBits (bs.flatMap sampleClasses) := by
  induction bs with
  | nil => rfl
  | cons b bs ih => rw [List.flatMap_cons, outputBits_append, ← ih]; rfl

theorem rejStream_eq (bs : List Byte) : rejStream bs = rejectedBits (bs.flatMap sampleClasses) := by
  induction bs with
  | nil => rfl
  | cons b bs ih => rw [List.flatMap_cons, rejectedBits_append, ← ih]; rfl

/-- Every class gives an output bit or a rejected bit. -/
theorem length_outputBits_rejectedBits (ps : List PairClass) :
    (outputBits ps).length + (rejectedBits ps).length = ps.length := by
  induction ps with
  | nil => rfl
  | cons p ps ih => cases p <;> simp [outputBits, rejectedBits, pairX, pairY] at ih ⊢ <;> omega

/-! ## Packing -/

theorem getLsbD_packByte {xs : List Bool} (h : xs.length ≤ 8) (i : Nat) :
    (packByte xs).getLsbD i = xs.getD i false := by
  induction xs generalizing i with
  | nil => simp [packByte]
  | cons x xs ih =>
    simp only [List.length_cons] at h
    simp only [packByte, BitVec.getLsbD_or, BitVec.getLsbD_shiftLeft]
    cases i with
    | zero => cases x <;> simp [bitByte]
    | succ i =>
      have hx : (bitByte x).getLsbD (i + 1) = false := by cases x <;> simp [bitByte]
      rw [hx, show i + 1 - 1 = i from rfl, ih (by omega)]
      by_cases h8 : i + 1 < 8
      · simp [h8]
      · have hz : xs.getD i false = false := List.getD_eq_default _ _ (by omega)
        simp at hz
        simp [h8, hz]

@[simp] theorem length_packBytes (n : Nat) (xs : List Bool) : (packBytes n xs).length = n := by
  induction n generalizing xs with
  | zero => rfl
  | succ n ih => simp [packBytes, ih]

theorem getElem_packBytes {n j : Nat} (xs : List Bool) (h : j < n) :
    (packBytes n xs)[j]? = some (packByte ((xs.drop (8 * j)).take 8)) := by
  induction n generalizing xs j with
  | zero => omega
  | succ n ih =>
    cases j with
    | zero => simp [packBytes]
    | succ j =>
      rw [packBytes, List.getElem?_cons_succ, ih _ (by omega), List.drop_drop, show 8 + 8 * j = 8 * (j + 1) by omega]

theorem packBytes_append {n : Nat} {xs : List Bool} (ys : List Bool) (h : 8 * n ≤ xs.length) :
    packBytes n (xs ++ ys) = packBytes n xs := by
  induction n generalizing xs with
  | zero => rfl
  | succ n ih =>
    simp only [packBytes]
    rw [List.take_append_of_le_length (by omega), List.drop_append_of_le_length (by omega), ih (by simp; omega)]

theorem packBlocks_append {n : Nat} {xs : List Bool} (ys : List Bool) (h : 20000 * n ≤ xs.length) :
    packBlocks n (xs ++ ys) = packBlocks n xs := by
  induction n generalizing xs with
  | zero => rfl
  | succ n ih =>
    rw [packBlocks, packBlocks, packBytes_append _ (by omega), List.drop_append_of_le_length (by omega),
      ih (by simp; omega)]

/-! ## The reference for XOR mode -/

theorem rollWord_append (w : Word32) (As Bs : List (List Byte)) :
    rollWord w (As ++ Bs) = rollWord (rollWord w As) Bs := by
  induction As generalizing w with
  | nil => rfl
  | cons B As ih => exact ih _

theorem acceptedBlocks_append (w : Word32) (As Bs : List (List Byte)) :
    acceptedBlocks w (As ++ Bs) = acceptedBlocks w As ++ acceptedBlocks (rollWord w As) Bs := by
  induction As generalizing w with
  | nil => rfl
  | cons B As ih =>
    simp only [List.cons_append, acceptedBlocks, rollWord, ih]
    split <;> simp

theorem xorEmissions_snoc (As : List (List Byte)) (A B : List Byte) :
    xorEmissions (As ++ [A] ++ [B]) = xorEmissions (As ++ [A]) ++ xorBytes B A := by
  induction As with
  | nil => simp [xorEmissions]
  | cons C As ih =>
    cases As with
    | nil => simp [xorEmissions]
    | cons D As => simp only [List.cons_append, xorEmissions] at ih ⊢; rw [ih]; simp

end Sys2Proof.Machine
end

