-- ==== Sys2Proof/Tests/Slice0.lean ====
section
/-! SUPPORT. Tests, with expected values from the spec's tables and vectors (V-..., P...) or worked out by hand from its
rules, and for every statement with hypotheses a witness that meets them. -/

namespace Sys2Proof.Tests

open Sys2Proof.Machine

/-! ## Well-formedness checks refuse ill-formed terms -/

theorem test_fail_without_mask_refused : Event.wellFormed { code := .fipsFail, mask := 0 } = false := by decide
theorem test_retain_with_mask_refused : Event.wellFormed { code := .retain, mask := 1 } = false := by decide
theorem test_emitXor_with_mask_refused : Event.wellFormed { code := .emitXor, mask := 0x1F } = false := by decide
theorem test_emitAes_with_mask_refused : Event.wellFormed { code := .emitAes, mask := 2 } = false := by decide
theorem test_drop_with_mask_refused : Event.wellFormed { code := .warmupDrop, mask := 4 } = false := by decide
theorem test_short_limits_refused : FipsLimits.wellFormed { specLimits with runLo := [2315] } = false := by decide
theorem test_long_limits_refused : FipsLimits.wellFormed { specLimits with runHi := [1, 2, 3, 4, 5, 6, 7] } = false := by
  decide
theorem test_small_hash_buffer_refused : Config.sizesOk { specConfig with hashBytes := 2499 } = false := by decide
theorem test_early_ready_refused : Config.sizesOk { specConfig with readyPushes := 19999 } = false := by decide
theorem test_wide_packing_refused : ¬ Config.packingOk { specConfig with packing := fun h => (h, 0) } := fun h =>
  absurd (h 2500 (by decide)).1 (by decide)
theorem test_ninth_bit_packing_refused : ¬ Config.packingOk { specConfig with packing := fun h => (h / 8, 8) } :=
  fun h => absurd (h 0 (by decide)).2 (by decide)
theorem test_narrow_words_refused : Config.crngOk { specConfig with crngWordBits := 8 } = false := by decide
theorem test_wide_words_refused : Config.crngOk { specConfig with crngWordBits := 64 } = false := by decide
theorem test_odd_words_refused : Config.crngOk { specConfig with crngWordBits := 20 } = false := by decide
theorem test_undividing_words_refused : Config.crngOk { specConfig with crngWordBits := 24 } = false := by decide
theorem test_wide_seed_refused :
    Config.crngOk { specConfig with crngWordBits := 16, fipsSeed := 0x10000 } = false := by decide
theorem test_sixteen_bit_words_accepted : Config.crngOk { specConfig with crngWordBits := 16 } = true := by decide
theorem test_spec_config_ok : specConfig.ok := ⟨by decide, by decide, fun h hh => by
  simp only [specConfig, specPacking] at hh ⊢; omega⟩

/-! ## Decoding (words from R70, R72, R75, R76, V-E4) -/

theorem test_decode_sample_mixed :
    decodeWord (.s8 0b11000110#8) = .sample .out0 .out1 .rej0 0b11 := by decide
theorem test_decode_sample_out : decodeWord (.s8 0b00011001#8) = .sample .out1 .out0 .out1 0 := by decide
theorem test_decode_sample_rej : decodeWord (.s8 0b10110011#8) = .sample .rej1 .rej0 .rej1 0b10 := by decide
theorem test_decode_vnRej0 : decodeWord (.p2 0b00#2) = .vnRej0 := by decide
theorem test_decode_vnOut1 : decodeWord (.p2 0b01#2) = .vnOut1 := by decide
theorem test_decode_vnOut0 : decodeWord (.p2 0b10#2) = .vnOut0 := by decide
theorem test_decode_vnRej1 : decodeWord (.p2 0b11#2) = .vnRej1 := by decide
theorem test_decode_stream : decodeBytes [0x2A, 0x15] = .ok (.sample .out0 .out0 .out0 0, [0x15]) := by rfl
theorem test_decode_empty : decodeBytes [] = .error .noSample := by rfl
theorem test_table_word_sample : decodeTableWord 8 0x1B = some (.sample .rej1 .out0 .out1 0) := by decide
theorem test_table_word_pair : decodeTableWord 2 0b01 = some .vnOut1 := by decide
theorem test_table_word_wide_pair : tableWord 2 4 = .error .notAPairField := by decide
theorem test_table_word_wide_sample : tableWord 8 256 = .error .notASample := by decide
theorem test_table_word_no_format : tableWord 16 0 = .error .noSuchFormat := by decide

/-- V-E4 -/
theorem test_obits : obits true false true = 0x19 ∧ obits false true true = 0x16 ∧ rbits true false true = 0x33 := by
  decide

/-- The last sample of P4's stream carries one bit: field 10 and two fields 00. -/
theorem test_ostream_tail : ostream [true, false, false, false] = [0x29, 0x02] := by decide

/-- V-E3 -/
theorem test_event_bytes :
    Event.byte { code := .retain, mask := 0 } = 0x00 ∧ Event.byte { code := .emitXor, mask := 0 } = 0x01 ∧
    Event.byte { code := .emitAes, mask := 0 } = 0x02 ∧ Event.byte { code := .fipsFail, mask := 0x1F } = 0xFB ∧
    Event.byte { code := .fipsFail, mask := 0x16 } = 0xB3 ∧ Event.byte { code := .warmupDrop, mask := 0 } = 0x04 := by
  decide

/-! ## Instructions -/

/-- The state an instruction leads to. -/
def after (i : Instr) (s : State) : State :=
  match exec i s with
  | .next t => t
  | .fault _ => s
  | .refused _ => s

/-- What V-E1 lists of a state. -/
def view (s : State) : Byte × Nat × Byte × Nat := (s.acc.read 0, s.bitcnt, s.hbuf.read 0, s.hpos)

/-- A state with these counters and first bytes. -/
def small (bits bytes hpos : Nat) (acc hbuf : Mem) : State :=
  { State.reset with bitcnt := bits, bytecnt := bytes, hpos := hpos, acc := acc, hbuf := hbuf }

/-- V-E1: rows of every shape. -/
theorem test_sample_from_reset :
    ∀ r ∈ [((0x00 : Byte), ((0x00 : Byte), 0, (0x00 : Byte), 3)), (0x01, (0x01, 1, 0x00, 2)), (0x03, (0x00, 0, 0x01, 3)),
      (0x15, (0x07, 3, 0x00, 0)), (0x1B, (0x02, 2, 0x01, 1)), (0x39, (0x01, 2, 0x01, 1)), (0x6C, (0x00, 1, 0x02, 2)),
      (0xC6, (0x02, 2, 0x00, 1)), (0xE4, (0x01, 2, 0x00, 1)), (0xFF, (0x00, 0, 0x07, 3))],
      view (after (decodeWord (.s8 r.1)) State.reset) = r.2 := by decide

/-- P2, third sample: the eighth bit of byte 0 is pair 1. -/
theorem test_sample_wraps_a_byte :
    let t := after (decodeWord (.s8 0x16)) (small 6 0 0 [(0, 0x3F)] [])
    t.acc = [(0, 0xBF), (1, 0x01)] ∧ t.bitcnt = 1 ∧ t.bytecnt = 1 := by decide

/-- R120, R121: bit 7 of byte 1 is set and the byte wraps. -/
theorem test_vnOut1_wraps :
    let t := after .vnOut1 (small 7 1 5 [(1, 0x05)] [(0, 0x03)])
    t.acc = [(1, 0x85)] ∧ t.bitcnt = 0 ∧ t.bytecnt = 2 ∧ t.hbuf = [(0, 0x03)] ∧ t.hpos = 5 := by decide

/-- R120: an output 0 changes only the counters. -/
theorem test_vnOut0_advances :
    let t := after .vnOut0 (small 2 1 5 [(1, 0x03)] [])
    t.acc = [(1, 0x03)] ∧ t.bitcnt = 3 ∧ t.bytecnt = 1 := by decide

/-- R121: an output 0 wraps the byte too. -/
theorem test_vnOut0_wraps :
    let t := after .vnOut0 (small 7 0 0 [(0, 0x7F)] [])
    t.acc = [(0, 0x7F)] ∧ t.bitcnt = 0 ∧ t.bytecnt = 1 := by decide

/-- V-A4, the last push: a 0 at position 0 clears bit 0 of 0xFF. -/
theorem test_vnRej0_clears :
    let t := after .vnRej0 (small 0 0 0 [] [(0, 0xFF), (1, 0xFF)])
    t.hbuf = [(0, 0xFE), (1, 0xFF)] ∧ t.hpos = 1 ∧ t.hashReady = false := by decide

/-- R131: the push at position 19999 wraps HPOS and sets HASH_READY. -/
theorem test_vnRej0_wraps :
    let t := after .vnRej0 (small 3 0 19999 [(0, 0x05)] [(2499, 0xFF)])
    t.hbuf = [(2499, 0x7F)] ∧ t.hpos = 0 ∧ t.hashReady = true ∧ t.acc = [(0, 0x05)] ∧ t.bitcnt = 3 := by decide

/-- V-A3: the push of a 1 at position 19999. -/
theorem test_vnRej1_wraps :
    let t := after .vnRej1 (small 0 0 19999 [] [(2499, 0x7F)])
    t.hbuf = [(2499, 0xFF)] ∧ t.hpos = 0 ∧ t.hashReady = true := by decide

/-- R130: position 19998 is bit 6 of byte 2499, and HASH_READY stays 0 (V-A3). -/
theorem test_vnRej1_before_the_wrap :
    let t := after .vnRej1 (small 0 0 19998 [] [(2499, 0x3F)])
    t.hbuf = [(2499, 0x7F)] ∧ t.hpos = 19999 ∧ t.hashReady = false := by decide

/-! ## The monitor and the standard functions -/

/-- V-F9, monobit and poker. -/
theorem test_monobit_poker_bounds :
    [9725, 9726, 10274, 10275].map (monobitFails specLimits) = [true, false, false, true] ∧
    [1562504, 1563175, 1563176, 1576928, 1576929].map (pokerFails specLimits) = [true, true, false, false, true] := by
  decide

/-- V-F9, runs and long run. -/
theorem test_runs_bounds :
    [2314, 2315, 2685, 2686].map (runCountFails specLimits 1) = [true, false, false, true] ∧
    [102, 103, 209, 210].map (runCountFails specLimits 6) = [true, false, false, true] ∧
    longRunFails specLimits [(false, 25)] = false ∧ longRunFails specLimits [(true, 3), (false, 26)] = true := by decide

/-- R153 and R154 worked out by hand: 0x36 is 0,1,1,0,1,1,0,0 in scan order, so the segments are 6 and 12. -/
theorem test_segments_and_runs :
    segments (seqBits .lsbFirst [0x36]) = [6, 12] ∧
    runsOf (seqBits .lsbFirst [0x36]) = [(false, 1), (true, 2), (false, 1), (true, 2), (false, 2)] ∧
    segments (seqBits .msbFirst [0x36]) = [3, 6] := by decide

/-- R158, R159: words are little-endian, and the last one is the new state. -/
theorem test_crng : crng specConfig [1, 2, 3, 4, 1, 2, 3, 4] 0 = (true, 0x04030201) ∧
    crng specConfig [1, 0, 0, 0, 2, 0, 0, 0] 3 = (false, 2) ∧
    crng specConfig [1, 0, 0, 0, 2, 0, 0, 0] 1 = (true, 2) := by decide

/-- R12: the same comparison with words of 16 bits. -/
theorem test_crng_sixteen : crng { specConfig with crngWordBits := 16 } [1, 2, 3, 4] 0x0201 = (true, 0x0403) ∧
    crng { specConfig with crngWordBits := 16 } [1, 2, 1, 2] 0 = (true, 0x0201) ∧
    crng { specConfig with crngWordBits := 16 } [1, 2, 3, 4] 0 = (false, 0x0403) := by decide

/-- V-X3 on three bytes: equal blocks give zeros. -/
theorem test_xor_equal : xorBytes [1, 2, 3] [1, 2, 3] = [0, 0, 0] := by decide

/-- V-G1 -/
theorem test_sha512_abc : (sha512 [0x61, 0x62, 0x63]).toList =
    [0xdd, 0xaf, 0x35, 0xa1, 0x93, 0x61, 0x7a, 0xba, 0xcc, 0x41, 0x73, 0x49, 0xae, 0x20, 0x41, 0x31] ++
    [0x12, 0xe6, 0xfa, 0x4e, 0x89, 0xa9, 0x7e, 0xa2, 0x0a, 0x9e, 0xee, 0xe6, 0x4b, 0x55, 0xd3, 0x9a] ++
    [0x21, 0x92, 0x99, 0x2a, 0x27, 0x4f, 0xc1, 0xa8, 0x36, 0xba, 0x3c, 0x23, 0xa3, 0xfe, 0xeb, 0xbd] ++
    [0x45, 0x4d, 0x44, 0x23, 0x64, 0x3c, 0xe8, 0x0e, 0x2a, 0x9a, 0xc9, 0x4f, 0xa5, 0x4c, 0xa4, 0x9f] := by
  decide +kernel

/-- V-G2 -/
theorem test_aes128 :
    (aes128 (Vector.ofFn fun i => BitVec.ofNat 8 i.val) (Vector.ofFn fun i => BitVec.ofNat 8 (17 * i.val))).toList =
    [0x69, 0xc4, 0xe0, 0xd8, 0x6a, 0x7b, 0x04, 0x30, 0xd8, 0xcd, 0xb7, 0x80, 0x70, 0xb4, 0xc5, 0x5a] := by
  decide +kernel

/-! ## The host -/

/-- A state with this host beside the core and these emitted bytes. -/
def beside (p : Phase) (daemon : Bool) (port : List HostAct) (sink : List SinkAct) (out : List Byte) : State :=
  { State.reset with
    out := out, env := { phase := p, daemon := daemon, chunk := [], port := port, sink := sink, taken := 0 } }

/-- The same with these samples of a chunk in progress. -/
def inChunk (chunk : List Byte) (s : State) : State := s.withEnv { s.env with chunk := chunk }

/-- The state a step leads to. -/
def afterStep (s : State) : State :=
  match step s with
  | .next t => t
  | .fault _ => s
  | .refused _ => s

/-- withFetchWord: the very next step from reset runs the sample that carries the word. -/
theorem test_fetch_sample : view (afterStep (State.reset.withFetchWord 8 0x1B)) = (0x02, 2, 0x01, 1) := by decide
theorem test_fetch_pair : view (afterStep (State.reset.withFetchWord 2 0b11)) = (0x00, 0, 0x01, 3) := by decide

/-- R221: a reset latches the mode it is given. -/
theorem test_reset_latches_mode : (afterStep (beside .notStarted false [.assertReset .aes] [] [])).mode = .aes := by
  decide

/-- R225: what is left of a chunk is not presented after the re-open. -/
theorem test_pipe_error_drops_the_chunk :
    (afterStep (inChunk [0x2A] (beside .running true [] [.pipeError] [0x01]))).env.chunk = [] := by decide

/-- R226: a termination after a device error keeps the error exit code. -/
theorem test_error_exit_code_stays :
    (afterStep (beside (.terminated .error) false [.terminate] [] [])).env.phase = .terminated .error := by decide

/-! ## A block that passes the monitor -/

/-- 250 bytes whose bits, repeated ten times, pass all five tests. -/
def pattern : List Byte := (List.range 250).map fun j => BitVec.ofNat 8 ((65 ^ 335 % 2 ^ 1999) >>> (8 * j))

/-- Ten copies of a list. -/
def copies {α : Type} : Nat → List α → List α
  | 0, _ => []
  | n + 1, l => l ++ copies n l

def passing : List Byte := copies 10 pattern

theorem length_copies {α : Type} (n : Nat) (l : List α) : (copies n l).length = n * l.length := by
  induction n with
  | zero => simp [copies]
  | succ n ih => simp [copies, ih, Nat.succ_mul, Nat.add_comm]

theorem seqBits_copies (n : Nat) (B : List Byte) :
    seqBits .lsbFirst (copies n B) = copies n (seqBits .lsbFirst B) := by
  induction n with
  | zero => rfl
  | succ n ih => simp only [copies, seqBits, List.flatMap_append] at ih ⊢; rw [ih]

theorem ones_copies (n : Nat) (s : List Bool) : ones (copies n s) = n * ones s := by
  induction n with
  | zero => simp [copies, ones]
  | succ n ih => simp only [copies, ones, List.count_append] at ih ⊢; rw [ih, Nat.succ_mul, Nat.add_comm]

theorem segments_copies (n : Nat) {s : List Bool} (h : s.length % 4 = 0) :
    segments (copies n s) = copies n (segments s) := by
  induction n with
  | zero => rfl
  | succ n ih => rw [copies, segments_append _ h, ih]; rfl

theorem count_copies (n v : Nat) (l : List Nat) : (copies n l).count v = n * l.count v := by
  induction n with
  | zero => simp [copies]
  | succ n ih => rw [copies, List.count_append, ih, Nat.succ_mul, Nat.add_comm]

theorem runsOf_copies (a b : Bool) (s : List Bool) (h : a ≠ b) (n : Nat) :
    runsOf (copies n (b :: s ++ [a])) = copies n (runsOf (b :: s ++ [a])) := by
  induction n with
  | zero => rfl
  | succ n ih =>
    rw [copies, copies, ← ih]
    cases n with
    | zero => simp [copies]
    | succ n =>
      have := runsOf_append a b (b :: s) ((s ++ [a]) ++ copies n (b :: s ++ [a])) h
      simpa [copies] using this

theorem runCount_copies (n : Nat) (rs : List (Bool × Nat)) (v : Bool) (c : Nat) :
    runCount (copies n rs) v c = n * runCount rs v c := by
  induction n with
  | zero => simp [copies, runCount]
  | succ n ih => simp only [copies, runCount, List.countP_append] at ih ⊢; rw [ih, Nat.succ_mul, Nat.add_comm]

theorem any_copies {α : Type} (p : α → Bool) (n : Nat) (l : List α) : (copies (n + 1) l).any p = l.any p := by
  induction n with
  | zero => simp [copies]
  | succ n ih => rw [copies, List.any_append, ih, Bool.or_self]

def bits : List Bool := seqBits .lsbFirst pattern

theorem length_pattern : pattern.length = 250 := by simp only [pattern, List.length_map, List.length_range]

theorem bits_length : bits.length = 2000 := by
  simp only [bits, length_seqBits, length_pattern]
theorem bits_split : bits = true :: (bits.drop 1).take 1998 ++ [false] := by decide +kernel
theorem bits_ones : ones bits = 990 := by decide +kernel
theorem bits_poker : ((List.range 16).map fun i => (10 * (segments bits).count i) ^ 2).sum = 1572000 := by
  decide +kernel
theorem bits_runs : ([false, true].any fun v => [1, 2, 3, 4, 5, 6].any fun c =>
    runCountFails specLimits c (10 * runCount (runsOf bits) v c)) = false := by
  decide +kernel
theorem bits_long : longRunFails specLimits (runsOf bits) = false := by decide +kernel
theorem passing_crng : (crng specConfig passing 0).1 = false := by decide +kernel

/-- The mask of a block under the spec's settings. -/
theorem fipsTest_mask (B : List Byte) (w : Word32) :
    (fipsTest specConfig B w).1 = failureMask (monobit specLimits (seqBits .lsbFirst B))
      (poker specLimits (seqBits .lsbFirst B)) (runsFail specLimits (runsOf (seqBits .lsbFirst B)))
      (longRunFails specLimits (runsOf (seqBits .lsbFirst B))) (crng specConfig B w).1 := rfl

theorem passing_passes : (fipsTest specConfig passing 0).1 = 0 := by
  have hs : seqBits .lsbFirst passing = copies 10 bits := seqBits_copies 10 pattern
  have hr : runsOf (copies 10 bits) = copies 10 (runsOf bits) := by
    rw [bits_split]; exact runsOf_copies false true _ (by decide) 10
  have h1 : monobit specLimits (copies 10 bits) = false := by rw [monobit, ones_copies, bits_ones]; decide
  have h2 : poker specLimits (copies 10 bits) = false := by
    have : pokerSum (copies 10 bits) = 1572000 := by
      rw [pokerSum, segments_copies _ (by rw [bits_length])]
      simp only [count_copies, bits_poker]
    rw [poker, this]; decide
  have h3 : runsFail specLimits (runsOf (copies 10 bits)) = false := by
    rw [hr, runsFail]
    simp only [runCount_copies]
    exact bits_runs
  have h4 : longRunFails specLimits (runsOf (copies 10 bits)) = false := by
    rw [hr, longRunFails, any_copies]; exact bits_long
  rw [fipsTest_mask, hs, h1, h2, h3, h4, passing_crng]
  rfl

theorem length_passing : passing.length = 2500 := by
  simp only [passing, length_copies, length_pattern]

/-! ## Witnesses -/

/-- A core in which the next output bit is the last of its block. -/
def lastBit (m : Mode) (acc : Mem) (havePrev ready : Bool) : State :=
  { State.reset with mode := m, acc := acc, bitcnt := 7, bytecnt := 2499, havePrev := havePrev, hashReady := ready }

/-- An output 0 that closes a block leaves ACC's bytes as they are. -/
theorem closingBlock_zero {s : State} (h : Mem.wf 2500 s.acc = true) (hb : s.bytecnt < 2500) :
    closingBlock false s = s.acc.bytes 2500 := by
  rw [closingBlock, orBit_false]
  congr 1
  refine Mem.ext (Mem.wf_write hb h) h fun a => ?_
  rw [Mem.read_write h]
  split
  · next ha => rw [ha]
  · rfl

theorem closingBlock_lastBit (m : Mode) (havePrev ready : Bool) (B : List Byte) (h : B.length = 2500) :
    closingBlock false (lastBit m (Mem.ofBytes B) havePrev ready) = B := by
  have hw : Mem.wf 2500 (lastBit m (Mem.ofBytes B) havePrev ready).acc = true := Mem.wf_ofBytes (Nat.le_of_eq h)
  have hb : (lastBit m (Mem.ofBytes B) havePrev ready).bytecnt < 2500 := by show 2499 < 2500; decide
  exact (closingBlock_zero hw hb).trans (Mem.bytes_ofBytes h)

theorem passing_closes (m : Mode) (havePrev ready : Bool) :
    (closingVerdict false (lastBit m (Mem.ofBytes passing) havePrev ready)).1 = 0 := by
  rw [closingVerdict, closingBlock_lastBit m havePrev ready passing length_passing]
  exact passing_passes

theorem failing_closes (m : Mode) : (closingVerdict false (lastBit m [] false false)).1 ≠ 0 := by
  have h : closingBlock false (lastBit m [] false false) = List.replicate 2500 0 := by
    rw [closingBlock_zero (Mem.wf_nil 2500) (by show 2499 < 2500; decide)]
    exact Mem.bytes_nil 2500
  have hc : (crng specConfig (List.replicate 2500 0) 0).1 = true := by decide +kernel
  have hm : ∀ a b c d : Bool, failureMask a b c d true ≠ 0 := by decide
  rw [closingVerdict, h]
  show (fipsTest specConfig (List.replicate 2500 0) 0).1 ≠ 0
  rw [fipsTest_mask, hc]
  exact hm _ _ _ _

theorem witness_DecodeAndEncodeAgree : ∀ i ∈ [decodeSample 0x2A, decodeSample 0xC6],
    ∃ p0 p1 p2 ign, i = .sample p0 p1 p2 ign := by
  intro i hi
  rcases List.mem_cons.mp hi with rfl | hi
  · exact ⟨_, _, _, _, rfl⟩
  · rw [List.mem_singleton.mp hi]; exact ⟨_, _, _, _, rfl⟩

/-- V-E2 -/
theorem witness_IgnoredBitsChangeNothing :
    (0x06#8 ≠ 0xC6#8) ∧ ∀ i, i < 6 → (0x06#8).getLsbD i = (0xC6#8).getLsbD i := by decide

theorem witness_EventRecordsRoundTrip :
    5 ≤ ((0xFD#8).extractLsb' 0 3).toNat ∧ Event.ofByte 0xFB#8 = some { code := .fipsFail, mask := 0x1F } := by decide

/-- The boundary: a sample that appends one bit, where one more would complete the block, and one that appends three. -/
theorem witness_SampleAppendsAndPushesItsBits :
    ∀ r ∈ [((0x3D : Byte), small 6 2499 19999 [(2499, 0x0F)] [(2499, 0x7F)]), (0x19, small 4 2499 0 [(2499, 0x0F)] [])],
    let outs : List Bool := ([0, 1, 2].filter fun k => r.1.getLsbD (2 * k) != r.1.getLsbD (2 * k + 1)).map
      fun k => r.1.getLsbD (2 * k)
    Mem.wf 2500 r.2.acc = true ∧ Mem.wf 2500 r.2.hbuf = true ∧ r.2.bitcnt ≤ 7 ∧ r.2.hpos < 20000 ∧
    8 * r.2.bytecnt + r.2.bitcnt + outs.length = 19999 := by decide

theorem witness_VnOut1AppendsAOne : State.reset.bytecnt < 2500 ∧ ¬ State.reset.AtLastBit := by
  constructor <;> simp [State.reset, State.AtLastBit]

/-- The boundary: byte 2499 with one bit short of its last. -/
theorem witness_VnOut0OnlyAdvancesTheCounters :
    Mem.wf 2500 (small 6 2499 0 [(2499, 0x3F)] []).acc = true ∧ (small 6 2499 0 [(2499, 0x3F)] []).bytecnt < 2500 ∧
    ¬ (small 6 2499 0 [(2499, 0x3F)] []).AtLastBit := by
  refine ⟨by decide, by decide, fun h => absurd h.1 (by decide)⟩

theorem witness_AppendChangesOneBitOfAcc :
    Mem.wf 2500 (small 7 2498 0 [(0, 1)] []).acc = true ∧ (small 7 2498 0 [(0, 1)] []).bitcnt ≤ 7 ∧
    (small 7 2498 0 [(0, 1)] []).bytecnt < 2500 ∧ ¬ (small 7 2498 0 [(0, 1)] []).AtLastBit := by
  refine ⟨by decide, by decide, by decide, fun h => absurd h.2 (by decide)⟩

theorem witness_PushChangesOneBitOfHbuf : Mem.wf 2500 (small 0 0 19999 [] [(2499, 0x80)]).hbuf = true := by decide

theorem witness_CompletionResetsTheAccumulator : (lastBit .xor [] false false).AtLastBit := ⟨rfl, rfl⟩

theorem witness_FailedBlockIsDiscarded : ∃ (x : Bool) (s : State), s.AtLastBit ∧ (closingVerdict x s).1 ≠ 0 :=
  ⟨false, _, ⟨rfl, rfl⟩, failing_closes .aes⟩

theorem witness_FirstAcceptedBlockIsRetained : ∃ (x : Bool) (s : State),
    s.AtLastBit ∧ (closingVerdict x s).1 = 0 ∧ s.mode = .xor ∧ s.havePrev = false :=
  ⟨false, _, ⟨rfl, rfl⟩, passing_closes .xor false false, rfl, rfl⟩

theorem witness_LaterAcceptedBlockIsXored : ∃ (x : Bool) (s : State),
    s.AtLastBit ∧ (closingVerdict x s).1 = 0 ∧ s.mode = .xor ∧ s.havePrev = true :=
  ⟨false, _, ⟨rfl, rfl⟩, passing_closes .xor true false, rfl, rfl⟩

theorem witness_WarmupBlockIsDropped : ∃ (x : Bool) (s : State),
    s.AtLastBit ∧ (closingVerdict x s).1 = 0 ∧ s.mode = .aes ∧ s.hashReady = false :=
  ⟨false, _, ⟨rfl, rfl⟩, passing_closes .aes false false, rfl, rfl⟩

theorem witness_AcceptedBlockIsEncrypted : ∃ (x : Bool) (s : State),
    s.AtLastBit ∧ (closingVerdict x s).1 = 0 ∧ s.mode = .aes ∧ s.hashReady = true :=
  ⟨false, _, ⟨rfl, rfl⟩, passing_closes .aes false true, rfl, rfl⟩

theorem witness_SampleEmitsAtMostOneGroup :
    (lastBit .aes [] false true).bitcnt ≤ 7 ∧ (lastBit .aes [] false true).bytecnt < 2500 := by decide

theorem witness_SequenceScansTheBlock : 1 < [(0x36 : Byte), 0x01].length ∧ 7 < 8 := by decide

theorem witness_MonobitAndPokerIntervals : (seqBits .lsbFirst passing).length = 4 * 5000 := by
  rw [length_seqBits, length_passing]

theorem witness_PokerSumBounds : (List.replicate 20000 false).length = 20000 := List.length_replicate

theorem witness_ContinuousRunComparesNeighbours : passing.length = 2500 ∧ (624 : Nat) < 625 ∧ 3 < 4 ∧ 7 < 8 :=
  ⟨length_passing, by decide, by decide, by decide⟩

theorem witness_PaddingIsPkcs7 : passing.length = 2500 := length_passing

theorem witness_CbcChainsItsBlocks : (List.replicate 32 (0x0C : Byte)).length = 16 * 2 ∧ 0 < 2 ∧ 0 + 1 < 2 := by decide

theorem witness_AccHoldsTheCurrentBlock :
    8 * 0 + 2 < 8 * (afterSamples [0x15] (State.afterReset specConfig .aes HostSide.started)).bytecnt +
      (afterSamples [0x15] (State.afterReset specConfig .aes HostSide.started)).bitcnt := by decide

theorem witness_HbufHoldsTheLatestRejectedBits :
    2 < (rejStream [0x3F]).length ∧ (rejStream [0x3F]).length ≤ 2 + 20000 := by decide

/-- One sample into a run in XOR mode: an output bit and two rejected bits. -/
theorem witness_SampleExtendsTheHistory :
    State.Holds (after (decodeWord (.s8 0x0D)) State.reset) [true] [true, false] where
  accumulates := {
    fill := by decide, bitcnt := by decide, bytecnt := by decide, pushes := by decide, hpos := by decide
    hashReady := by decide, accForm := by decide, hbufForm := by decide
    accBits := fun j k _ hlt => by
      have h : 8 * j + k < 1 := hlt
      obtain ⟨rfl, rfl⟩ : j = 0 ∧ k = 0 := by omega
      decide
    accClear := fun j k hk hle => by
      have h : 1 ≤ 8 * j + k := hle
      have hacc : (after (decodeWord (.s8 0x0D)) State.reset).acc = [(0, 1)] := by decide
      rw [hacc]
      by_cases hj : j = 0
      · subst hj
        have h0 : ∀ i, 1 ≤ i → i < 8 → (Mem.read [(0, 1)] 0).getLsbD i = false := by decide
        exact h0 k (by omega) hk
      · have h0 : Mem.read [(0, 1)] j = 0 := by simp [Mem.read, Ne.symm hj]
        rw [h0]; simp
    hbufBits := fun h hh _ => by
      have h2 : h < 2 := hh
      have h0 : ∀ i, i < 2 → ([true, false] : List Bool)[i]? =
          some (((after (decodeWord (.s8 0x0D)) State.reset).hbuf.read (i % 20000 / 8)).getLsbD (i % 20000 % 8)) := by
        decide
      exact h0 h h2 }
  emitsXor := fun _ => { fipsLast32 := by decide, out := by decide, prev := by decide }

theorem witness_ExtractionIgnoresTheMode : ∃ s t s' t' : State, s ≠ t ∧
    (s.acc = t.acc ∧ s.bitcnt = t.bitcnt ∧ s.bytecnt = t.bytecnt ∧ s.hbuf = t.hbuf ∧ s.hpos = t.hpos ∧
      s.hashReady = t.hashReady ∧ s.fipsLast32 = t.fipsLast32 ∧ s.lastMask = t.lastMask ∧ s.pushes = t.pushes) ∧
    exec .vnOut1 s = .next s' ∧ exec .vnOut1 t = .next t' :=
  ⟨State.reset, State.afterReset specConfig .aes HostSide.started, _, _, by decide,
    ⟨rfl, rfl, rfl, rfl, rfl, rfl, rfl, rfl, rfl⟩, rfl, rfl⟩

theorem witness_XorModeIgnoresTheHashBuffer : ∃ s t s' t' : State, s ≠ t ∧ s.mode = .xor ∧
    (∃ hb hp hr kr n, t = { s with hbuf := hb, hpos := hp, hashReady := hr, keyreg := kr, pushes := n }) ∧
    exec .vnRej1 s = .next s' ∧ exec .vnRej1 t = .next t' :=
  ⟨State.reset, { State.reset with hbuf := [(0, 5)], hpos := 3, hashReady := true, keyreg := [], pushes := 20003 },
    _, _, by decide, rfl, ⟨_, _, _, _, _, rfl⟩, rfl, rfl⟩

theorem witness_AesModeIgnoresThePreviousBlock : ∃ s s' : State, s.mode = .aes ∧ exec .vnOut0 s = .next s' :=
  ⟨lastBit .aes (Mem.ofBytes passing) true true, _, rfl, rfl⟩

/-- The running host, with an emission pending that the sink does not take or with nothing pending, and the host before
its start. -/
theorem witness_AssertedResetRestartsTheCore :
    let s := inChunk [0x2A] (beside .running false [.assertReset .aes] [] [0x01])
    let t := beside .notStarted false [.assertReset .aes] [.accept 1] [0x01]
    let u := beside .running false [.assertReset .aes] [.accept 1] []
    (s.env.port = .assertReset .aes :: [] ∧ s.env.phase ≠ .readerGone ∧
      (s.env.phase = .running → s.pending = true → s.env.sink = []) ∧
      (s.env.phase = .running → s.pending = false → s.env.chunk = [])) ∧
    (t.env.port = .assertReset .aes :: [] ∧ t.env.phase ≠ .readerGone ∧
      (t.env.phase = .running → t.pending = true → t.env.sink = []) ∧
      (t.env.phase = .running → t.pending = false → t.env.chunk = [])) ∧
    (u.env.port = .assertReset .aes :: [] ∧ u.env.phase ≠ .readerGone ∧
      (u.env.phase = .running → u.pending = true → u.env.sink = []) ∧
      (u.env.phase = .running → u.pending = false → u.env.chunk = [])) := by decide

theorem witness_ModeChangesOnlyAtReset : ∃ s t : State, step s = .next t ∧ t.mode ≠ s.mode :=
  ⟨beside .running false [.assertReset .aes] [] [], _, rfl, by decide⟩

theorem witness_HashReadyIsSticky : ∃ s t : State, step s = .next t ∧ s.hashReady = true ∧ t.hashReady = false :=
  ⟨{ beside .running false [.assertReset .aes] [] [] with hashReady := true }, _, rfl, rfl, rfl⟩

/-- A sample of a chunk, and a single one at the port. -/
theorem witness_StepRunsTheDecodedWord :
    let s := inChunk [0x2A, 0x15] (beside .running false [.present 0x3F] [] [])
    let t := beside .running false [.present 0x2A, .terminate] [] []
    (s.env.phase = .running ∧ s.out.length ≤ s.env.taken ∧ s.env.chunk = 0x2A :: [0x15]) ∧
    (t.env.phase = .running ∧ t.out.length ≤ t.env.taken ∧ t.env.chunk = [] ∧
      t.env.port = .present 0x2A :: [.terminate]) := by decide

theorem witness_PendingEmissionHoldsTheNextSample :
    let s := beside .running false [.present 0x2A] [] [0x01]
    let t := beside .running false [.chunk 1 [0x2A]] [] [0x01]
    let u := inChunk [0x2A] (beside .running false [] [] [0x01])
    (s.env.phase = .running ∧ s.env.taken < s.out.length ∧ s.env.sink = [] ∧ s.env.port = .present 0x2A :: []) ∧
    (t.env.phase = .running ∧ t.env.taken < t.out.length ∧ t.env.sink = [] ∧ t.env.port = .chunk 1 [0x2A] :: []) ∧
    (u.env.phase = .running ∧ u.env.taken < u.out.length ∧ u.env.sink = [] ∧ u.env.port = [] ∧
      u.env.chunk = 0x2A :: []) := by decide

theorem witness_SinkAcceptanceAdvancesTheOutput :
    let s := beside .running false [] [.accept 1] [0x01, 0x02]
    s.env.phase = .running ∧ s.env.taken < s.out.length ∧ s.env.sink = .accept 1 :: [] := by decide

theorem witness_IdleCoreKeepsItsState :
    let s := beside .running false [] [.accept 1] []
    let t := beside .running false [] [] [0x01]
    (s.env.phase = .running ∧ s.env.port = [] ∧ s.env.chunk = [] ∧ s.out.length ≤ s.env.taken) ∧
    (t.env.phase = .running ∧ t.env.port = [] ∧ t.env.taken < t.out.length ∧ t.env.sink = []) := by decide

theorem witness_ChunksAreTheirSamples :
    let s := beside .running false [.chunk 2 [0x2A, 0x15]] [] []
    let t := beside .running false [.chunk 2 [0x2A]] [] []
    (s.env.phase = .running ∧ s.out.length ≤ s.env.taken ∧ s.env.chunk = [] ∧
      s.env.port = .chunk 2 [0x2A, 0x15] :: [] ∧ [(0x2A : Byte), 0x15].length = 2) ∧
    (t.env.phase = .running ∧ t.out.length ≤ t.env.taken ∧ t.env.chunk = [] ∧
      t.env.port = .chunk 2 [0x2A] :: [] ∧ [(0x2A : Byte)].length < 2) := by decide

/-- One state for each phase and each way to be held in it. -/
theorem witness_TerminationFlushesNothing :
    let r := beside .notStarted false [.terminate] [] []
    let s := { beside .running false [.terminate] [.accept 1] [] with bitcnt := 3, acc := [(0, 0x05)] }
    let t := inChunk [0x2A] (beside .running false [.terminate] [] [0x01])
    let u := beside .readerGone true [.terminate] [] []
    let v := beside (.terminated .error) true [.terminate] [] []
    (r.env.port = .terminate :: [] ∧ r.env.phase = .notStarted) ∧
    (s.env.port = .terminate :: [] ∧ s.env.phase = .running ∧ s.out.length ≤ s.env.taken ∧ s.env.chunk = []) ∧
    (t.env.port = .terminate :: [] ∧ t.env.phase = .running ∧ t.env.taken < t.out.length ∧ t.env.sink = []) ∧
    (u.env.port = .terminate :: [] ∧ u.env.phase = .readerGone ∧ u.env.daemon = true ∧ u.env.sink = []) ∧
    (v.env.port = .terminate :: [] ∧ v.env.phase = .terminated .error) := by decide

/-- One state for each clause. -/
theorem witness_ReaderChangeKeepsTheCore :
    let s := beside .running true [] [.pipeError] [0x01]
    let t := beside .readerGone true [] [.reopened] []
    let u := beside .readerGone true [] [.reopenFailed] []
    let v := beside .readerGone false [] [] []
    (s.env.phase = .running ∧ s.env.taken < s.out.length ∧ s.env.sink = .pipeError :: []) ∧
    (t.env.phase = .readerGone ∧ t.env.daemon = true ∧ t.env.sink = .reopened :: []) ∧
    (u.env.phase = .readerGone ∧ u.env.daemon = true ∧ u.env.sink = .reopenFailed :: []) ∧
    (v.env.phase = .readerGone ∧ v.env.daemon = false) := by decide

/-- One state for each way to misuse the core, and the refusal it meets. -/
theorem witness_HostMisuseIsRefused :
    (∃ s : State, s.env.phase = .notStarted ∧ s.env.port = .present 0 :: [] ∧
      step s = .refused .sampleBeforeReset) ∧
    (∃ s : State, s.env.phase = .terminated .clean ∧ s.env.port = .chunk 0 [] :: [] ∧
      step s = .refused .sampleBeforeReset) ∧
    (∃ s : State, s.env.phase = .running ∧ s.env.port = .presentInside 0 :: [] ∧
      step s = .refused .operationInProgress) ∧
    (∃ s : State, s.env.phase = .running ∧ s.env.taken < s.out.length ∧ s.env.sink = [] ∧
      s.env.port = .resetInside .aes :: [] ∧ step s = .refused .operationInProgress) ∧
    (∃ s : State, s.env.phase = .running ∧ s.env.port = .switchMode .aes :: [] ∧
      step s = .refused .modeChangeWithoutReset) :=
  ⟨⟨beside .notStarted false [.present 0] [] [], rfl, rfl, rfl⟩,
    ⟨beside (.terminated .clean) false [.chunk 0 []] [] [], rfl, rfl, rfl⟩,
    ⟨beside .running false [.presentInside 0] [] [], rfl, rfl, rfl⟩,
    ⟨beside .running false [.resetInside .aes] [] [0x01], rfl, by decide, rfl, rfl, rfl⟩,
    ⟨beside .running false [.switchMode .aes] [] [], rfl, rfl, rfl⟩⟩

theorem witness_DutifulHostIsNeverRefused :
    (beside .notStarted true [.assertReset .xor, .present 0x2A, .chunk 1 [0x15], .terminate]
      [.pipeError, .reopened, .accept 5] []).env.dutiful = true := by decide

theorem witness_StepKeepsTheInvariant : ∃ s t : State, s.Inv ∧ step s = .next t :=
  ⟨beside .running false [.present 0x2A] [] [], _,
    { inRange := ⟨by decide, by decide, by decide⟩
      canonical := ⟨rfl, rfl, rfl, rfl⟩
      clear := fun _ _ _ _ => by simp [beside, State.reset, State.afterReset]
      pushes := ⟨by decide, by decide⟩
      key := rfl }, rfl⟩

theorem witness_StepKeepsTheLedger : ∃ s t : State, s.Ledger ∧ step s = .next t :=
  ⟨beside .running false [.present 0x2A] [] [], _,
    { xor := fun _ => by decide
      aes := fun h => absurd h (by decide)
      ports := ⟨fun e he => absurd he (List.not_mem_nil), by decide⟩ }, rfl⟩

/-- Larger parameters than the spec's own, so that the last clause has a witness too. -/
theorem witness_PushStaysInRangeForAnyParameters :
    let C : Config := { specConfig with hashBytes := 3000, readyPushes := 24001 }
    C.ok ∧ Mem.wf C.hashBytes (small 0 0 23999 [] [(2999, 1)]).hbuf = true ∧
    (small 0 0 23999 [] [(2999, 1)]).hpos < 8 * C.hashBytes ∧ C.readyPushes ≠ 8 * C.hashBytes := by
  refine ⟨⟨by decide, by decide, fun h hh => ?_⟩, by decide, by decide, by decide⟩
  simp only [specConfig, specPacking] at hh ⊢
  omega

end Sys2Proof.Tests
end

section
/-! The scope rules (R10, R11, R13, R26, R27, R73, R240): what a sample's bits are read for, what a push does under any
parameters, and the state after reset. -/

namespace Sys2Proof.Machine

/-! ## The bits of a sample that are read -/

/-- A sample runs its three pair classes in order (R73, R100). -/
theorem exec_decodeWord_s8 (b : Byte) (s : State) :
    exec (decodeWord (.s8 b)) s = .next (runClasses specConfig (sampleClasses b) s) := exec_eq _ s

/-- A pair field is its two bits of the sample (R71). -/
theorem pairField_congr {b b' : Byte} {k : Nat} (h0 : b.getLsbD (2 * k) = b'.getLsbD (2 * k))
    (h1 : b.getLsbD (2 * k + 1) = b'.getLsbD (2 * k + 1)) : pairField b k = pairField b' k := by
  apply BitVec.eq_of_getLsbD_eq
  intro i hi
  simp only [pairField, BitVec.getLsbD_extractLsb', hi, decide_true, Bool.true_and]
  match i with
  | 0 => exact h0
  | 1 => exact h1

/-- Bits 7:6 select no pair class (R73). -/
theorem sampleClasses_congr {b b' : Byte} (h : ∀ i, i < 6 → b.getLsbD i = b'.getLsbD i) :
    sampleClasses b = sampleClasses b' := by
  have hfield : ∀ k, k < 3 → pairField b k = pairField b' k := fun k hk =>
    pairField_congr (h _ (by omega)) (h _ (by omega))
  simp only [sampleClasses, hfield 0 (by decide), hfield 1 (by decide), hfield 2 (by decide)]

/-! ## A push under any parameters -/

section
variable {C : Config} {s : State}

theorem rejectBit_hpos (C : Config) (x : Bool) (s : State) :
    (rejectBit C x s).hpos = if s.hpos = 8 * C.hashBytes - 1 then 0 else s.hpos + 1 := rfl

theorem rejectBit_hashReady (C : Config) (x : Bool) (s : State) :
    (rejectBit C x s).hashReady = (s.hashReady || readyNow C s) := rfl

/-- A push keeps the canonical form of HBUF: it writes the byte that the packing selects, which is one of HBUF's. -/
theorem wf_hbuf_rejectBit (hC : C.packingOk) (x : Bool) (hwf : Mem.wf C.hashBytes s.hbuf = true)
    (hpos : s.hpos < 8 * C.hashBytes) : Mem.wf C.hashBytes (rejectBit C x s).hbuf = true := by
  obtain ⟨hbyte, _⟩ := hC s.hpos hpos
  exact Mem.wf_write hbyte hwf

/-- HPOS stays within the cycle (R26, R130). -/
theorem hpos_rejectBit_lt (x : Bool) (hpos : s.hpos < 8 * C.hashBytes) :
    (rejectBit C x s).hpos < 8 * C.hashBytes := by
  rw [rejectBit_hpos]
  split <;> omega

/-- HASH_READY is sticky under pushes (R27, R131). -/
theorem hashReady_rejectBit (x : Bool) (h : s.hashReady = true) : (rejectBit C x s).hashReady = true := by
  rw [rejectBit_hashReady, h, Bool.true_or]

/-- With READY_PUSHES other than one full cycle, readiness is decided by the number of the push (I1). -/
theorem readyNow_of_ne_cycle (h : C.readyPushes ≠ 8 * C.hashBytes) :
    readyNow C s = decide (C.readyPushes ≤ s.pushes + 1) := if_neg h

end

end Sys2Proof.Machine

open Sys2Proof Sys2Proof.Machine

/-- Settles O5: the three pair fields, and with them the pair classes a sample runs, read bits 0 to 5 only. -/
theorem ignoredBitsChangeNothing : Obligations.IgnoredBitsChangeNothing := by
  unfold Obligations.IgnoredBitsChangeNothing
  refine ⟨fun b rest => ⟨_, _, _, _, rfl⟩, fun b b' s h => ?_⟩
  rw [exec_decodeWord_s8, exec_decodeWord_s8, sampleClasses_congr h]

/-- Settles O60: one lemma on a push for each of HBUF, HPOS and the two clauses on HASH_READY. -/
theorem pushStaysInRangeForAnyParameters : Obligations.PushStaysInRangeForAnyParameters := by
  unfold Obligations.PushStaysInRangeForAnyParameters
  intro C x s ⟨_, _, hpack⟩ hwf hpos
  refine ⟨wf_hbuf_rejectBit hpack x hwf hpos, hpos_rejectBit_lt x hpos, hashReady_rejectBit x, fun hne => ?_⟩
  rw [rejectBit_hashReady, readyNow_of_ne_cycle hne]

/-- Settles O44: the fourteen elements are written out in RESET, and an array without entries reads as zeros. -/
theorem resetStateIsAsWritten : Obligations.ResetStateIsAsWritten := by
  unfold Obligations.ResetStateIsAsWritten
  refine ⟨rfl, rfl, rfl, rfl, rfl, rfl, rfl, rfl, rfl, rfl, rfl, rfl, rfl, rfl, fun j => ?_⟩
  simp only [State.reset, State.acc_afterReset, State.hbuf_afterReset, State.prev_afterReset,
    State.keyreg_afterReset, Mem.read_nil, and_self]

end

section
/-! The state rules (R27, R40, R107, R131, R132): the invariant after reset and under each pair step, the number of
output bits and of pushes that a state accounts for, and the stickiness of HASH_READY. -/

namespace Sys2Proof.Machine

/-! ## The fill position of ACC -/

/-- The number of bits of the current block that ACC holds (R40 (b), R51). -/
def fillPos (s : State) : Nat := 8 * s.bytecnt + s.bitcnt

/-- R40 (b), said of the fill position and the bits of ACC. -/
theorem clearAbove_iff {s : State} :
    s.ClearAbove ↔ ∀ j k, k < 8 → fillPos s ≤ 8 * j + k → s.acc.bitAt j k = false := Iff.rfl

@[simp] theorem fillPos_appended (x : Bool) (s : State) : fillPos (appended x s) = fillPos s + 1 := by
  simp only [fillPos, appended_bitcnt, appended_bytecnt]
  split <;> omega

@[simp] theorem fillPos_blockComplete (C : Config) (s : State) : fillPos (blockComplete C s) = 0 := by simp [fillPos]

@[simp] theorem fillPos_rejectBit (C : Config) (x : Bool) (s : State) : fillPos (rejectBit C x s) = fillPos s := rfl

/-- An append writes at the fill position, below every bit that has to stay 0. -/
theorem clearAbove_appended (x : Bool) {s : State} (hacc : Mem.wf 2500 s.acc = true)
    (h : s.ClearAbove) : (appended x s).ClearAbove := by
  rw [clearAbove_iff] at h ⊢
  intro j k hk hpos
  rw [fillPos_appended] at hpos
  have hold := h j k hk (by omega)
  rw [appended_acc, Mem.bitAt_write hacc]
  split
  · next hj =>
    subst hj
    have hne : k ≠ s.bitcnt := by unfold fillPos at hpos; omega
    simpa [getLsbD_orBit, hne, Mem.bitAt] using hold
  · exact hold

/-! ## PREV and KEYREG at a completion -/

/-- A completion keeps PREV or writes the completed block there (R182). -/
theorem blockComplete_prev (C : Config) (s : State) :
    (blockComplete C s).prev = s.prev ∨ (blockComplete C s).prev = Mem.ofBytes (completedBlock s) := by
  rcases blockComplete_cases C s with ⟨_, h, _⟩ | ⟨_, _, _, h, _⟩ | ⟨_, _, _, h, _⟩ | ⟨_, _, _, h, _⟩ | ⟨_, _, _, h, _⟩
  · exact .inl h
  · exact .inr h
  · exact .inr h
  · exact .inl h
  · exact .inl h

/-- A completion keeps KEYREG or destroys the key (R199). -/
theorem blockComplete_keyreg (C : Config) (s : State) :
    (blockComplete C s).keyreg = s.keyreg ∨ (blockComplete C s).keyreg = [] := by
  rcases blockComplete_cases C s with ⟨_, _, _, h, _⟩ | ⟨_, _, _, _, _, h, _⟩ | ⟨_, _, _, _, _, h, _⟩ |
    ⟨_, _, _, _, _, h, _⟩ | ⟨_, _, _, _, _, h, _⟩
  · exact .inl h
  · exact .inl h
  · exact .inl h
  · exact .inl h
  · exact .inr h

theorem wf_prev_blockComplete (C : Config) {s : State} (h : Mem.wf 2500 s.prev = true) :
    Mem.wf 2500 (blockComplete C s).prev = true := by
  rcases blockComplete_prev C s with hp | hp <;> rw [hp]
  · exact h
  · exact Mem.wf_ofBytes (by simp)

theorem keyClear_blockComplete (C : Config) {s : State} (h : s.KeyClear) : (blockComplete C s).KeyClear :=
  (blockComplete_keyreg C s).elim (·.trans h) id

/-! ## The invariant of R40 -/

theorem inv_afterReset (C : Config) (m : Mode) (e : HostSide) : (State.afterReset C m e).Inv where
  inRange := ⟨by simp, by simp, by simp⟩
  canonical := ⟨rfl, rfl, rfl, rfl⟩
  clear := fun _ _ _ _ => by simp
  pushes := ⟨rfl, rfl⟩
  key := rfl

/-- The invariant does not speak of the host. -/
theorem inv_withEnv (s : State) (e : HostSide) (h : s.Inv) : (s.withEnv e).Inv :=
  ⟨h.inRange, h.canonical, h.clear, h.pushes, h.key⟩

theorem wf_acc_appended (x : Bool) {s : State} (hbyte : s.bytecnt < 2500) (hacc : Mem.wf 2500 s.acc = true) :
    Mem.wf 2500 (appended x s).acc = true := by
  rw [appended_acc]
  exact Mem.wf_write hbyte hacc

/-- An append that leaves its block open. -/
theorem inv_appended (x : Bool) {s : State} (h : s.Inv) (hopen : ¬ s.AtLastBit) : (appended x s).Inv := by
  obtain ⟨⟨hbit, hbyte, hpos⟩, ⟨hacc, hhbuf, hprev, hkeyreg⟩, hclear, ⟨hcycle, hready⟩, hkey⟩ := h
  refine ⟨⟨?_, ?_, by simpa using hpos⟩, ⟨wf_acc_appended x hbyte hacc, by simpa using hhbuf, by simpa using hprev,
    by simpa using hkeyreg⟩, clearAbove_appended x hacc hclear, ⟨by simpa using hcycle, by simpa using hready⟩,
    by simpa [State.KeyClear] using hkey⟩
  · rw [appended_bitcnt]
    split <;> omega
  · rw [appended_bytecnt]
    unfold State.AtLastBit at hopen
    split <;> omega

/-- An append that closes its block: ACC and the counters start again, whatever they were. -/
theorem inv_blockComplete_appended (C : Config) (x : Bool) {s : State} (h : s.Inv) :
    (blockComplete C (appended x s)).Inv := by
  obtain ⟨⟨_, _, hpos⟩, ⟨_, hhbuf, hprev, _⟩, _, ⟨hcycle, hready⟩, hkey⟩ := h
  have hkey' : (blockComplete C (appended x s)).keyreg = [] :=
    keyClear_blockComplete C (by simpa [State.KeyClear] using hkey)
  exact {
    inRange := ⟨by simp, by simp, by simpa using hpos⟩
    canonical := ⟨rfl, by simpa using hhbuf, wf_prev_blockComplete C (by simpa using hprev), by rw [hkey']; rfl⟩
    clear := fun _ _ _ _ => by simp
    pushes := ⟨by simpa using hcycle, by simpa using hready⟩
    key := hkey' }

theorem inv_outputBit (C : Config) (x : Bool) (s : State) (h : s.Inv) : (outputBit C x s).Inv := by
  obtain ⟨_, hbyte, _⟩ := h.inRange
  rcases outputBit_cases C x hbyte with ⟨hopen, heq⟩ | ⟨_, heq⟩ <;> rw [heq]
  · exact inv_appended x h hopen
  · exact inv_blockComplete_appended C x h

/-- HPOS wraps and HASH_READY is set on every 20000th push and on no other (R131, R132). -/
theorem pushesAgree_rejectBit (x : Bool) {s : State} (h : s.PushesAgree) :
    (rejectBit specConfig x s).PushesAgree := by
  obtain ⟨hcycle, hready⟩ := h
  rw [rejectBit_spec]
  constructor
  · simp only [State.hpos_withHash, State.pushes_withHash]
    split <;> omega
  · simp only [State.hashReady_withHash, State.pushes_withHash, hready, ← Bool.decide_or, decide_eq_decide]
    omega

/-- The packing of D5 stays within the 2500 bytes of HBUF (R26, R55). -/
theorem specConfig_packingOk : specConfig.packingOk := fun h hlt =>
  ⟨Nat.div_lt_of_lt_mul hlt, Nat.mod_lt h (by decide)⟩

theorem inv_rejectBit (x : Bool) (s : State) (h : s.Inv) : (rejectBit specConfig x s).Inv := by
  obtain ⟨⟨hbit, hbyte, hpos⟩, ⟨hacc, hhbuf, hprev, hkeyreg⟩, hclear, hpush, hkey⟩ := h
  exact {
    inRange := ⟨hbit, hbyte, hpos_rejectBit_lt x hpos⟩
    canonical := ⟨hacc, wf_hbuf_rejectBit specConfig_packingOk x hhbuf hpos, hprev, hkeyreg⟩
    clear := hclear
    pushes := pushesAgree_rejectBit x hpush
    key := hkey }

theorem inv_runClasses (ps : List PairClass) {s : State} (h : s.Inv) : (runClasses specConfig ps s).Inv :=
  runClasses_keeps (inv_outputBit specConfig) inv_rejectBit ps h

/-! ## The ledger and the history after reset -/

theorem ledger_afterReset (C : Config) (m : Mode) {e : HostSide} (h : e.taken = 0) :
    (State.afterReset C m e).Ledger where
  xor := fun _ => by simp [eventCount]
  aes := fun _ => by simp [eventCount]
  ports := ⟨fun _ he => absurd he List.not_mem_nil, by simp [h]⟩

theorem accumulates_afterReset (C : Config) (m : Mode) (e : HostSide) :
    (State.afterReset C m e).Accumulates [] [] where
  fill := rfl
  bitcnt := by simp
  bytecnt := by simp
  pushes := rfl
  hpos := rfl
  hashReady := rfl
  accForm := rfl
  hbufForm := rfl
  accBits := fun j k _ h => by simp at h
  accClear := (inv_afterReset C m e).clear
  hbufBits := fun h hlt => absurd hlt (Nat.not_lt_zero h)

/-- The reset state holds the empty history: no output bit, no rejected bit. -/
theorem holds_afterReset (m : Mode) (e : HostSide) : (State.afterReset specConfig m e).Holds [] [] where
  accumulates := accumulates_afterReset specConfig m e
  emitsXor := fun _ => ⟨rfl, rfl, rfl⟩

/-! ## Output bits and pushes accounted for -/

/-- The output bits since reset as the events, BYTECNT and BITCNT account for them (R40 (c)). -/
def outputCount (s : State) : Nat := 20000 * s.evt.length + fillPos s

/-- An output bit moves the fill position on by one, or closes its block at position 19999 and logs one event. -/
theorem outputCount_outputBit (C : Config) (x : Bool) {s : State} (hbyte : s.bytecnt < 2500) :
    outputCount (outputBit C x s) = outputCount s + 1 := by
  rcases outputBit_cases C x hbyte with ⟨_, heq⟩ | ⟨⟨hbit7, hlast⟩, heq⟩ <;> rw [heq]
  · simp only [outputCount, appended_evt, fillPos_appended, Nat.add_assoc]
  · obtain ⟨e, he⟩ := blockComplete_logs_one C (appended x s)
    simp only [outputCount, he, appended_evt, List.length_append, List.length_singleton, fillPos_blockComplete]
    unfold fillPos
    omega

@[simp] theorem outputCount_rejectBit (C : Config) (x : Bool) (s : State) :
    outputCount (rejectBit C x s) = outputCount s := rfl

theorem outputCount_runClass (C : Config) (p : PairClass) {s : State} (hbyte : s.bytecnt < 2500) :
    outputCount (runClass C p s) = outputCount s + (outputBits [p]).length := by
  cases p with
  | rej0 => exact outputCount_rejectBit C false s
  | out1 => exact outputCount_outputBit C true hbyte
  | out0 => exact outputCount_outputBit C false hbyte
  | rej1 => exact outputCount_rejectBit C true s

theorem pushes_runClass (C : Config) (p : PairClass) (s : State) :
    (runClass C p s).pushes = s.pushes + (rejectedBits [p]).length := by
  cases p with
  | rej0 => exact rejectBit_pushes C false s
  | out1 => exact outputBit_pushes C true s
  | out0 => exact outputBit_pushes C false s
  | rej1 => exact rejectBit_pushes C true s

theorem outputCount_runClasses (ps : List PairClass) {s : State} (h : s.Inv) :
    outputCount (runClasses specConfig ps s) = outputCount s + (outputBits ps).length := by
  induction ps generalizing s with
  | nil => rfl
  | cons p ps ih =>
    obtain ⟨_, hbyte, _⟩ := h.inRange
    rw [runClasses_step, ih (s := runClass specConfig p s) (inv_runClasses [p] h),
      outputCount_runClass specConfig p hbyte, Nat.add_assoc, ← List.length_append, ← outputBits_append]
    rfl

theorem pushes_runClasses (C : Config) (ps : List PairClass) (s : State) :
    (runClasses C ps s).pushes = s.pushes + (rejectedBits ps).length := by
  induction ps generalizing s with
  | nil => rfl
  | cons p ps ih =>
    rw [runClasses_step, ih, pushes_runClass, Nat.add_assoc, ← List.length_append, ← rejectedBits_append]
    rfl

theorem length_flatMap_sampleClasses (bs : List Byte) : (bs.flatMap sampleClasses).length = 3 * bs.length := by
  induction bs with
  | nil => rfl
  | cons b bs ih =>
    rw [List.flatMap_cons, List.length_append, ih, List.length_cons]
    simp only [sampleClasses, List.length_cons, List.length_nil]
    omega

/-! ## HASH_READY -/

/-- No pair step clears HASH_READY (R27, R131). -/
theorem hashReady_runClasses (C : Config) (ps : List PairClass) {s : State} (h : s.hashReady = true) :
    (runClasses C ps s).hashReady = true :=
  runClasses_keeps (P := fun t => t.hashReady = true) (fun x t ht => (outputBit_hashReady C x t).trans ht)
    (fun x _ ht => hashReady_rejectBit x ht) ps h

end Sys2Proof.Machine

open Sys2Proof Sys2Proof.Machine

/-- Settles O58: output bits, rejected bits and the host keep the invariant, a reset establishes it. -/
theorem stepKeepsTheInvariant : Obligations.StepKeepsTheInvariant := by
  unfold Obligations.StepKeepsTheInvariant
  intro s t hs h
  exact step_keeps (inv_outputBit specConfig) inv_rejectBit inv_withEnv (inv_afterReset specConfig) hs h

/-- Settles O36: by induction over the pair classes of all samples, each of which adds one to one of the two counts. -/
theorem threeBitsPerSample : Obligations.ThreeBitsPerSample := by
  unfold Obligations.ThreeBitsPerSample
  intro bs m e
  have hout := outputCount_runClasses (bs.flatMap sampleClasses) (inv_afterReset specConfig m e)
  have hrej := pushes_runClasses specConfig (bs.flatMap sampleClasses) (State.afterReset specConfig m e)
  have hsum := length_outputBits_rejectedBits (bs.flatMap sampleClasses)
  rw [length_flatMap_sampleClasses] at hsum
  rw [afterSamples_eq, outStream_eq, rejStream_eq]
  exact ⟨hout.trans (Nat.zero_add _), hrej.trans (Nat.zero_add _), hsum⟩

/-- Settles O47: a sample's pair steps keep HASH_READY at 1, the host does not touch it, and the one case left is an
asserted reset. -/
theorem hashReadyIsSticky : Obligations.HashReadyIsSticky := by
  unfold Obligations.HashReadyIsSticky
  intro s t h hready
  rcases step_cases h with ⟨b, _, rfl⟩ | ⟨e, rfl, _⟩ | ⟨m, rest, e, hport, rfl, hrest, _⟩
  · obtain ⟨c, p, htake⟩ := takeSample_eq s
    rw [htake]
    exact .inl (hashReady_runClasses specConfig _ hready)
  · exact .inl hready
  · exact .inr ⟨m, rest, hport, hrest⟩

/-- Settles O57: the reset state is the state after a reset with nothing taken from OUT. -/
theorem resetStateMeetsTheInvariant : Obligations.ResetStateMeetsTheInvariant := by
  unfold Obligations.ResetStateMeetsTheInvariant
  exact ⟨inv_afterReset specConfig .xor HostSide.started, ledger_afterReset specConfig .xor rfl,
    holds_afterReset .xor HostSide.started⟩

end

section
/-! The history of a run (R51-R55, R107, R123, R132, R160, R184): what one pair step does to the bits of ACC and HBUF,
and that every pair step keeps a state in agreement with the output bits and rejected bits since reset. -/

namespace Sys2Proof.Machine

/-! ## The bits of ACC and HBUF after one pair step -/

/-- The instruction of an output bit. -/
theorem exec_outInstr (x : Bool) (s : State) : exec (outInstr x) s = .next (outputBit specConfig x s) := by
  cases x <;> rfl

/-- The instruction of a rejected bit. -/
theorem exec_rejInstr (x : Bool) (s : State) : exec (rejInstr x) s = .next (rejectBit specConfig x s) := by
  cases x <;> rfl

/-- R51, R120: an append ORs its bit in at the fill position. -/
theorem bitAt_acc_appended (x : Bool) {s : State} (hacc : Mem.wf 2500 s.acc = true) (hbit : s.bitcnt ≤ 7) (j : Nat)
    {k : Nat} (hk : k < 8) :
    (appended x s).acc.bitAt j k = (s.acc.bitAt j k || (decide (8 * j + k = fillPos s) && x)) := by
  rw [appended_acc, Mem.bitAt_write hacc]
  by_cases hj : s.bytecnt = j
  · subst hj
    have hpos : 8 * s.bytecnt + k = fillPos s ↔ k = s.bitcnt := by unfold fillPos; omega
    rw [if_pos rfl, getLsbD_orBit]
    simp [hk, hpos, Mem.bitAt]
  · have hpos : 8 * j + k ≠ fillPos s := by unfold fillPos; omega
    simp [hj, hpos]

/-- R52, R130: a push overwrites the bit that HPOS selects. -/
theorem bitAt_hbuf_rejectBit (x : Bool) {s : State} (hhbuf : Mem.wf 2500 s.hbuf = true) (j : Nat) {k : Nat}
    (hk : k < 8) :
    (rejectBit specConfig x s).hbuf.bitAt j k = if 8 * j + k = s.hpos then x else s.hbuf.bitAt j k := by
  rw [rejectBit_spec, State.hbuf_withHash, Mem.bitAt_write hhbuf]
  by_cases hj : s.hpos / 8 = j
  · subst hj
    have hpos : 8 * (s.hpos / 8) + k = s.hpos ↔ k = s.hpos % 8 := by omega
    rw [if_pos rfl, getLsbD_putBit]
    simp [hk, hpos, Mem.bitAt]
  · have hpos : 8 * j + k ≠ s.hpos := by omega
    rw [if_neg hj, if_neg hpos]

/-! ## The fill position in range -/

/-- R40 (a): BITCNT and BYTECNT are in range. -/
def CountersInRange (s : State) : Prop := s.bitcnt ≤ 7 ∧ s.bytecnt < 2500

theorem fillPos_lt {s : State} (h : CountersInRange s) : fillPos s < 20000 := by
  obtain ⟨hbit, hbyte⟩ := h
  unfold fillPos
  omega

/-- An append that leaves its block open. -/
theorem countersInRange_appended (x : Bool) {s : State} (h : CountersInRange s) (hopen : ¬ s.AtLastBit) :
    CountersInRange (appended x s) := by
  obtain ⟨hbit, hbyte⟩ := h
  unfold State.AtLastBit at hopen
  simp only [CountersInRange, appended_bitcnt, appended_bytecnt]
  split <;> omega

/-- A block is closed by the bit at position 19999 (R124). -/
theorem fillPos_of_atLastBit {s : State} (h : s.AtLastBit) : fillPos s = 19999 := by
  obtain ⟨hbit, hbyte⟩ := h
  rw [fillPos, hbit, hbyte]

theorem countersInRange_blockComplete (C : Config) (s : State) : CountersInRange (blockComplete C s) := by
  simp [CountersInRange]

/-! ## ACC against the output bits -/

/-- ACC holds the output bits behind the last full block, up to the fill position (R54, R123). -/
def AccTail (s : State) (outs : List Bool) : Prop :=
  ∀ j k, k < 8 → 8 * j + k < fillPos s → outs[20000 * s.evt.length + (8 * j + k)]? = some (s.acc.bitAt j k)

/-- An append puts the newest output bit at the fill position, where ACC was clear, and keeps the older ones. -/
theorem accTail_appended (x : Bool) {s : State} {outs : List Bool} (hacc : Mem.wf 2500 s.acc = true)
    (hbit : s.bitcnt ≤ 7) (hclear : s.ClearAbove) (hcount : outputCount s = outs.length) (h : AccTail s outs) :
    AccTail (appended x s) (outs ++ [x]) := by
  intro j k hk hlt
  rw [fillPos_appended] at hlt
  rw [appended_evt, bitAt_acc_appended x hacc hbit j hk]
  unfold outputCount at hcount
  by_cases hpos : 8 * j + k = fillPos s
  · have hzero : s.acc.bitAt j k = false := clearAbove_iff.1 hclear j k hk (by omega)
    rw [hpos, hcount, List.getElem?_concat_length]
    simp [hzero]
  · rw [List.getElem?_append_left (by omega), h j k hk (by omega)]
    simp [hpos]

theorem getElem_completedBlock (s : State) (j : Nat) (h : j < (completedBlock s).length) :
    (completedBlock s)[j] = s.acc.read j := Mem.getElem_bytes s.acc blockBytes j h

/-- A full ACC is the last 20000 output bits, packed (R54, R123). -/
theorem completedBlock_eq_packBytes {s : State} {outs : List Bool} (hfull : fillPos s = 20000) (h : AccTail s outs) :
    completedBlock s = packBytes 2500 (outs.drop (20000 * s.evt.length)) := by
  refine List.ext_getElem (by simp) fun j hj _ => ?_
  have hlt : j < 2500 := by simpa using hj
  have hbyte := (List.getElem?_eq_some_iff.1 (getElem_packBytes (outs.drop (20000 * s.evt.length)) hlt)).2
  rw [hbyte, getElem_completedBlock]
  apply BitVec.eq_of_getLsbD_eq
  intro k hk
  rw [getLsbD_packByte (List.length_take_le ..), List.getD_eq_getElem?_getD, List.getElem?_take_of_lt hk,
    List.getElem?_drop, List.getElem?_drop, h j k hk (by omega)]
  rfl

/-! ## Every pair step extends the accumulators' history -/

theorem State.Accumulates.countersInRange {s : State} {outs rejs : List Bool} (h : s.Accumulates outs rejs) :
    CountersInRange s := ⟨h.bitcnt, h.bytecnt⟩

theorem State.Accumulates.accTail_appended {s : State} {outs rejs : List Bool} (h : s.Accumulates outs rejs)
    (x : Bool) : AccTail (appended x s) (outs ++ [x]) :=
  Machine.accTail_appended x h.accForm h.bitcnt h.accClear h.fill h.accBits

theorem accumulates_appended (x : Bool) {s : State} {outs rejs : List Bool} (h : s.Accumulates outs rejs)
    (hopen : ¬ s.AtLastBit) : (appended x s).Accumulates (outs ++ [x]) rejs := by
  obtain ⟨hbit, hbyte⟩ := countersInRange_appended x h.countersInRange hopen
  have hfill : outputCount (appended x s) = (outs ++ [x]).length := by
    have hcount : outputCount s = outs.length := h.fill
    rw [outputCount, appended_evt, fillPos_appended, ← Nat.add_assoc]
    simpa [outputCount] using hcount
  exact {
    fill := hfill
    bitcnt := hbit
    bytecnt := hbyte
    pushes := by simpa using h.pushes
    hpos := by simpa using h.hpos
    hashReady := by simpa using h.hashReady
    accForm := wf_acc_appended x h.bytecnt h.accForm
    hbufForm := by simpa using h.hbufForm
    accBits := h.accTail_appended x
    accClear := clearAbove_appended x h.accForm h.accClear
    hbufBits := by simpa using h.hbufBits }

/-- An output bit that closes its block: ACC starts again and holds no bit. -/
theorem accumulates_blockComplete (x : Bool) {s : State} {outs rejs : List Bool} (h : s.Accumulates outs rejs)
    (hlast : s.AtLastBit) : (blockComplete specConfig (appended x s)).Accumulates (outs ++ [x]) rejs := by
  have hfill : outputCount (blockComplete specConfig (appended x s)) = (outs ++ [x]).length := by
    rw [← outputBit_closing hlast, outputCount_outputBit specConfig x h.bytecnt, List.length_append]
    exact congrArg (· + 1) h.fill
  exact {
    fill := hfill
    bitcnt := by simp
    bytecnt := by simp
    pushes := by simpa using h.pushes
    hpos := by simpa using h.hpos
    hashReady := by simpa using h.hashReady
    accForm := rfl
    hbufForm := by simpa using h.hbufForm
    accBits := fun j k _ hlt => by simp at hlt
    accClear := fun j k _ _ => by simp
    hbufBits := by simpa using h.hbufBits }

/-- A push puts the newest rejected bit at HPOS and overwrites the one 20000 before it (R132). -/
theorem hbufBits_rejectBit (x : Bool) {s : State} {outs rejs : List Bool} (h : s.Accumulates outs rejs) {n : Nat}
    (hlt : n < (rejs ++ [x]).length) (hrecent : (rejs ++ [x]).length ≤ n + 20000) :
    (rejs ++ [x])[n]? = some ((rejectBit specConfig x s).hbuf.bitAt (n % 20000 / 8) (n % 20000 % 8)) := by
  rw [List.length_append, List.length_singleton] at hlt hrecent
  rw [bitAt_hbuf_rejectBit x h.hbufForm _ (Nat.mod_lt _ (by decide)), Nat.div_add_mod, h.hpos]
  by_cases hn : n = rejs.length
  · rw [if_pos (by rw [hn]), hn, List.getElem?_concat_length]
  · rw [if_neg (by omega), List.getElem?_append_left (by omega)]
    exact h.hbufBits n (by omega) (by omega)

theorem accumulates_rejectBit (x : Bool) {s : State} {outs rejs : List Bool} (h : s.Accumulates outs rejs) :
    (rejectBit specConfig x s).Accumulates outs (rejs ++ [x]) := by
  have hpushes : (rejectBit specConfig x s).pushes = (rejs ++ [x]).length := by
    rw [rejectBit_pushes, h.pushes, List.length_append, List.length_singleton]
  have hagree : s.PushesAgree := ⟨by rw [h.hpos, h.pushes], by rw [h.hashReady, h.pushes]⟩
  obtain ⟨hcycle, hready⟩ := pushesAgree_rejectBit x hagree
  have hpos : s.hpos < 20000 := by rw [h.hpos]; exact Nat.mod_lt _ (by decide)
  exact {
    fill := h.fill
    bitcnt := h.bitcnt
    bytecnt := h.bytecnt
    pushes := hpushes
    hpos := by rw [hcycle, hpushes]
    hashReady := by rw [hready, hpushes]
    accForm := h.accForm
    hbufForm := wf_hbuf_rejectBit specConfig_packingOk x h.hbufForm hpos
    accBits := h.accBits
    accClear := h.accClear
    hbufBits := fun _ => hbufBits_rejectBit x h }

/-! ## The full blocks of the output bits -/

theorem packBlocks_succ (n : Nat) (xs : List Bool) :
    packBlocks (n + 1) xs = packBlocks n xs ++ [packBytes 2500 (xs.drop (20000 * n))] := by
  induction n generalizing xs with
  | zero => rfl
  | succ n ih =>
    rw [packBlocks, ih, packBlocks, List.drop_drop, Nat.mul_succ, Nat.add_comm 20000]
    rfl

/-- An output bit that completes no block (R122). -/
theorem fullBlocks_append_open (x : Bool) {outs : List Bool} {n r : Nat} (hlen : 20000 * n + r = outs.length)
    (hr : r < 19999) : fullBlocks (outs ++ [x]) = fullBlocks outs := by
  have hn : (outs ++ [x]).length / 20000 = n := by rw [List.length_append, List.length_singleton]; omega
  rw [fullBlocks, fullBlocks, hn, packBlocks_append _ (by omega), show outs.length / 20000 = n by omega]

/-- An output bit that completes a block (R123). -/
theorem fullBlocks_append_closing (x : Bool) {outs : List Bool} {n : Nat} (hlen : 20000 * n + 19999 = outs.length) :
    fullBlocks (outs ++ [x]) = fullBlocks outs ++ [packBytes 2500 ((outs ++ [x]).drop (20000 * n))] := by
  have hn : (outs ++ [x]).length / 20000 = n + 1 := by rw [List.length_append, List.length_singleton]; omega
  rw [fullBlocks, fullBlocks, hn, packBlocks_succ, packBlocks_append _ (by omega),
    show outs.length / 20000 = n by omega]

/-- The last block is accepted or not on the continuous state that the blocks before it leave (R160, R164). -/
theorem acceptedBlocks_snoc (w : Word32) (Bs : List (List Byte)) (B : List Byte) :
    acceptedBlocks w (Bs ++ [B]) =
      acceptedBlocks w Bs ++ if (fipsTest specConfig B (rollWord w Bs)).1 = 0 then [B] else [] := by
  rw [acceptedBlocks_append]
  rfl

/-! ## Every pair step extends XOR mode's history -/

/-- XOR mode's history speaks of the full blocks only. -/
theorem emitsXor_congr {s : State} {outs outs' : List Bool} (hblocks : fullBlocks outs' = fullBlocks outs)
    (h : s.EmitsXor outs) : s.EmitsXor outs' := by
  obtain ⟨hlast, hout, hprev⟩ := h
  rw [← hblocks] at hlast hout hprev
  exact ⟨hlast, hout, hprev⟩

theorem emitsXor_appended (x : Bool) {s : State} {outs : List Bool} (h : s.EmitsXor outs) :
    (appended x s).EmitsXor outs where
  fipsLast32 := by simpa using h.fipsLast32
  out := by simpa using h.out
  prev := by simpa using h.prev

theorem emitsXor_rejectBit (C : Config) (x : Bool) {s : State} {outs : List Bool} (h : s.EmitsXor outs) :
    (rejectBit C x s).EmitsXor outs := ⟨h.fipsLast32, h.out, h.prev⟩

/-- A completion in XOR mode: a failed block is left out, the first accepted one is retained, and a later one is XORed
with the accepted one before it (R127, R181, R184). -/
theorem emitsXor_blockComplete {s : State} {outs outs' : List Bool} (hmode : s.mode = .xor) (h : s.EmitsXor outs)
    (hblocks : fullBlocks outs' = fullBlocks outs ++ [completedBlock s]) :
    (blockComplete specConfig s).EmitsXor outs' := by
  obtain ⟨hlast, hout, hprev⟩ := h
  have hverdict : verdict specConfig s =
      fipsTest specConfig (completedBlock s) (rollWord specSeed (fullBlocks outs)) := by
    rw [verdict, hlast]
  have hacc := acceptedBlocks_snoc specSeed (fullBlocks outs) (completedBlock s)
  rw [← hblocks, ← hverdict] at hacc
  have hroll : (blockComplete specConfig s).fipsLast32 = rollWord specSeed (fullBlocks outs') := by
    rw [blockComplete_fipsLast32, hverdict, hblocks, rollWord_append]
    rfl
  have hbytes : (Mem.ofBytes (completedBlock s)).bytes 2500 = completedBlock s := Mem.bytes_ofBytes (by simp)
  rcases blockComplete_cases specConfig s with ⟨hk, hp, hhave, _, ho, _⟩ | ⟨hk, _, hfirst, hp, hhave, _, ho, _⟩ |
    ⟨hk, _, hlater, hp, hhave, _, ho, _⟩ | ⟨_, hm, _⟩ | ⟨_, hm, _⟩
  · rw [if_neg hk, List.append_nil] at hacc
    exact ⟨hroll, by rw [ho, hacc, hout], by rw [hacc, hp, hhave, hprev]⟩
  · rw [hfirst, if_neg Bool.false_ne_true, List.getLast?_eq_none_iff] at hprev
    rw [if_pos hk, hprev, List.nil_append] at hacc
    exact ⟨hroll, by rw [ho, hacc, hout, hprev]; rfl, by rw [hacc, hp, hhave, hbytes]; rfl⟩
  · rw [hlater, if_pos rfl, List.getLast?_eq_some_iff] at hprev
    obtain ⟨As, hAs⟩ := hprev
    rw [if_pos hk, hAs] at hacc
    have hemit : (blockComplete specConfig s).out = xorEmissions (acceptedBlocks specSeed (fullBlocks outs')) := by
      rw [ho, hout, hAs, hacc, xorEmissions_snoc]
      rfl
    exact ⟨hroll, hemit, by rw [hacc, hp, hhave, hbytes]; simp⟩
  · rw [hmode] at hm; cases hm
  · rw [hmode] at hm; cases hm

/-! ## Every pair step extends the history -/

theorem holds_appended (x : Bool) {s : State} {outs rejs : List Bool} (h : s.Holds outs rejs)
    (hopen : ¬ s.AtLastBit) : (appended x s).Holds (outs ++ [x]) rejs := by
  obtain ⟨hacc, hxor⟩ := h
  have hnext := fillPos_lt (countersInRange_appended x hacc.countersInRange hopen)
  rw [fillPos_appended] at hnext
  have hblocks := fullBlocks_append_open x (r := fillPos s) hacc.fill (by omega)
  refine ⟨accumulates_appended x hacc hopen, fun hmode => ?_⟩
  rw [appended_mode] at hmode
  exact emitsXor_congr hblocks (emitsXor_appended x (hxor hmode))

theorem holds_blockComplete (x : Bool) {s : State} {outs rejs : List Bool} (h : s.Holds outs rejs)
    (hlast : s.AtLastBit) : (blockComplete specConfig (appended x s)).Holds (outs ++ [x]) rejs := by
  obtain ⟨hacc, hxor⟩ := h
  have hpos := fillPos_of_atLastBit hlast
  have hlen : 20000 * s.evt.length + fillPos s = outs.length := hacc.fill
  have hblock := completedBlock_eq_packBytes (by rw [fillPos_appended, hpos]) (hacc.accTail_appended x)
  rw [hpos] at hlen
  rw [appended_evt] at hblock
  refine ⟨accumulates_blockComplete x hacc hlast, fun hmode => ?_⟩
  rw [blockComplete_mode, appended_mode] at hmode
  exact emitsXor_blockComplete (by rw [appended_mode, hmode]) (emitsXor_appended x (hxor hmode))
    (by rw [hblock]; exact fullBlocks_append_closing x hlen)

theorem holds_outputBit (x : Bool) {s : State} {outs rejs : List Bool} (h : s.Holds outs rejs) :
    (outputBit specConfig x s).Holds (outs ++ [x]) rejs := by
  rcases outputBit_cases specConfig x h.accumulates.bytecnt with ⟨hopen, heq⟩ | ⟨hlast, heq⟩ <;> rw [heq]
  · exact holds_appended x h hopen
  · exact holds_blockComplete x h hlast

theorem holds_rejectBit (x : Bool) {s : State} {outs rejs : List Bool} (h : s.Holds outs rejs) :
    (rejectBit specConfig x s).Holds outs (rejs ++ [x]) :=
  ⟨accumulates_rejectBit x h.accumulates, fun hmode => emitsXor_rejectBit specConfig x (h.emitsXor hmode)⟩

theorem holds_runClass (p : PairClass) {s : State} {outs rejs : List Bool} (h : s.Holds outs rejs) :
    (runClass specConfig p s).Holds (outs ++ outputBits [p]) (rejs ++ rejectedBits [p]) := by
  cases p with
  | rej0 => rw [show outputBits [.rej0] = [] from rfl, List.append_nil]; exact holds_rejectBit false h
  | out1 => rw [show rejectedBits [.out1] = [] from rfl, List.append_nil]; exact holds_outputBit true h
  | out0 => rw [show rejectedBits [.out0] = [] from rfl, List.append_nil]; exact holds_outputBit false h
  | rej1 => rw [show outputBits [.rej1] = [] from rfl, List.append_nil]; exact holds_rejectBit true h

theorem holds_runClasses (ps : List PairClass) {s : State} {outs rejs : List Bool} (h : s.Holds outs rejs) :
    (runClasses specConfig ps s).Holds (outs ++ outputBits ps) (rejs ++ rejectedBits ps) := by
  induction ps generalizing s outs rejs with
  | nil => simpa [outputBits, rejectedBits] using h
  | cons p ps ih =>
    have hrest := ih (holds_runClass p h)
    rw [List.append_assoc, ← outputBits_append, List.append_assoc, ← rejectedBits_append] at hrest
    exact hrest

/-- After any samples from reset, in either mode, a state holds the streams of R106 and R108. -/
theorem holds_afterSamples (bs : List Byte) (m : Mode) (e : HostSide) :
    (afterSamples bs (State.afterReset specConfig m e)).Holds (outStream bs) (rejStream bs) := by
  rw [afterSamples_eq, outStream_eq, rejStream_eq]
  exact holds_runClasses (bs.flatMap sampleClasses) (holds_afterReset m e)

end Sys2Proof.Machine

open Sys2Proof Sys2Proof.Machine

/-- Settles O40: each pair step extends the history by its bit, so the three pair steps of a sample by theirs. -/
theorem sampleExtendsTheHistory : Obligations.SampleExtendsTheHistory := by
  unfold Obligations.SampleExtendsTheHistory
  intro b s outs rejs h
  refine ⟨_, exec_decodeWord_s8 b s, ?_⟩
  rw [outStream_eq, rejStream_eq, List.flatMap_singleton]
  exact holds_runClasses (sampleClasses b) h

/-- Settles O15: an output bit that closes no block is an append. -/
theorem appendChangesOneBitOfAcc : Obligations.AppendChangesOneBitOfAcc := by
  unfold Obligations.AppendChangesOneBitOfAcc
  intro x s hacc hbit hbyte hopen
  have happend : outputBit specConfig x s = appended x s := (outputBit_open hopen hbyte).trans (appended_eq x s).symm
  refine ⟨appended x s, by rw [exec_outInstr, happend], fun j k hk => ?_⟩
  exact bitAt_acc_appended x hacc hbit j hk

/-- Settles O16: a rejected bit is a push. -/
theorem pushChangesOneBitOfHbuf : Obligations.PushChangesOneBitOfHbuf := by
  unfold Obligations.PushChangesOneBitOfHbuf
  intro x s hhbuf
  exact ⟨_, exec_rejInstr x s, fun j _ hk => bitAt_hbuf_rejectBit x hhbuf j hk⟩

/-- Settles O37: after any samples from reset the state holds its history. -/
theorem accHoldsTheCurrentBlock : Obligations.AccHoldsTheCurrentBlock := by
  unfold Obligations.AccHoldsTheCurrentBlock
  intro bs m e
  exact (holds_afterSamples bs m e).accumulates.accBits

/-- Settles O38: after any samples from reset the state holds its history. -/
theorem hbufHoldsTheLatestRejectedBits : Obligations.HbufHoldsTheLatestRejectedBits := by
  unfold Obligations.HbufHoldsTheLatestRejectedBits
  intro bs m e
  have h := (holds_afterSamples bs m e).accumulates
  exact ⟨h.hpos, h.hbufBits⟩

end

section
/-! Emissions of a sample (R59, R182, R198), the words of the continuous-run test (R158, R159), what the extraction does
not depend on (R66, R109), and the sample that a step runs (R220). -/

namespace Sys2Proof.Machine

/-! ## Emissions -/

/-- The bytes `g` and the events `l` of at most one block completion: no bytes, or one group of the mode's length with
its event. -/
def AtMostOneGroup (m : Mode) (g : List Byte) (l : List Event) : Prop :=
  l.length ≤ 1 ∧ (g = [] ∨ m = .xor ∧ g.length = 2500 ∧ l = [{ code := .emitXor, mask := 0 }] ∨
    m = .aes ∧ g.length = 2512 ∧ l = [{ code := .emitAes, mask := 0 }])

theorem blockComplete_emits (C : Config) (s : State) :
    ∃ g l, (blockComplete C s).out = s.out ++ g ∧ (blockComplete C s).evt = s.evt ++ l ∧ AtMostOneGroup s.mode g l := by
  rcases blockComplete_cases C s with ⟨_, _, _, _, ho, he⟩ | ⟨_, _, _, _, _, _, ho, he⟩ | ⟨_, hm, _, _, _, _, ho, he⟩ |
    ⟨_, _, _, _, _, _, ho, he⟩ | ⟨_, hm, _, _, _, _, ho, he⟩
  · exact ⟨[], _, by simpa using ho, he, Nat.le_refl 1, .inl rfl⟩
  · exact ⟨[], _, by simpa using ho, he, Nat.le_refl 1, .inl rfl⟩
  · exact ⟨_, _, ho, he, Nat.le_refl 1, .inr (.inl ⟨hm, length_xorBlock s.prev (length_completedBlock s), rfl⟩)⟩
  · exact ⟨[], _, by simpa using ho, he, Nat.le_refl 1, .inl rfl⟩
  · exact ⟨_, _, ho, he, Nat.le_refl 1, .inr (.inr ⟨hm, length_ciphertext (length_completedBlock s), rfl⟩)⟩

/-- A pair step that closes no block: OUT and EVT stay, and the fill position moves by at most one. -/
def StaysOpen (s t : State) : Prop :=
  t.out = s.out ∧ t.evt = s.evt ∧ CountersInRange t ∧ fillPos t ≤ fillPos s + 1

theorem outputBit_staysOpen_or_closes (C : Config) (x : Bool) {s : State} (h : CountersInRange s) :
    StaysOpen s (outputBit C x s) ∨ s.AtLastBit ∧ outputBit C x s = blockComplete C (appended x s) := by
  rcases outputBit_cases C x h.2 with ⟨hopen, heq⟩ | hclose
  · rw [heq]
    exact .inl ⟨appended_out x s, appended_evt x s, countersInRange_appended x h hopen,
      Nat.le_of_eq (fillPos_appended x s)⟩
  · exact .inr hclose

theorem rejectBit_staysOpen (C : Config) (x : Bool) {s : State} (h : CountersInRange s) :
    StaysOpen s (rejectBit C x s) := ⟨rfl, rfl, h, Nat.le_succ _⟩

theorem runClass_staysOpen_or_closes (C : Config) (p : PairClass) {s : State} (h : CountersInRange s) :
    StaysOpen s (runClass C p s) ∨ s.AtLastBit ∧ ∃ x, runClass C p s = blockComplete C (appended x s) := by
  cases p with
  | rej0 => exact .inl (rejectBit_staysOpen C false h)
  | out1 => exact (outputBit_staysOpen_or_closes C true h).imp_right fun ⟨hlast, heq⟩ => ⟨hlast, true, heq⟩
  | out0 => exact (outputBit_staysOpen_or_closes C false h).imp_right fun ⟨hlast, heq⟩ => ⟨hlast, false, heq⟩
  | rej1 => exact .inl (rejectBit_staysOpen C true h)

/-- Pair steps too few to fill the block emit and log nothing. -/
theorem runClasses_quiet (C : Config) (ps : List PairClass) {s : State} (h : CountersInRange s)
    (hroom : fillPos s + ps.length < 20000) :
    (runClasses C ps s).out = s.out ∧ (runClasses C ps s).evt = s.evt := by
  induction ps generalizing s with
  | nil => exact ⟨rfl, rfl⟩
  | cons p ps ih =>
    rw [List.length_cons] at hroom
    rcases runClass_staysOpen_or_closes C p h with ⟨hout, hevt, hrange, hfill⟩ | ⟨hlast, _⟩
    · rw [runClasses_step, ← hout, ← hevt]
      exact ih hrange (by omega)
    · have := fillPos_of_atLastBit hlast
      omega

/-- Fewer pair steps than a block has bits close at most one block. -/
theorem runClasses_emits (C : Config) (ps : List PairClass) {s : State} (h : CountersInRange s)
    (hlen : ps.length < 20000) :
    ∃ g l, (runClasses C ps s).out = s.out ++ g ∧ (runClasses C ps s).evt = s.evt ++ l ∧ AtMostOneGroup s.mode g l := by
  induction ps generalizing s with
  | nil => exact ⟨[], [], by simp, by simp, Nat.zero_le 1, .inl rfl⟩
  | cons p ps ih =>
    rw [List.length_cons] at hlen
    have hmode : (runClass C p s).mode = s.mode := runClasses_mode C [p] s
    rcases runClass_staysOpen_or_closes C p h with ⟨hout, hevt, hrange, _⟩ | ⟨_, x, heq⟩
    · rw [runClasses_step, ← hout, ← hevt, ← hmode]
      exact ih hrange (by omega)
    · obtain ⟨hout, hevt⟩ := runClasses_quiet C ps (countersInRange_blockComplete C (appended x s))
        (by rw [fillPos_blockComplete]; omega)
      rw [runClasses_step, heq, hout, hevt]
      simpa using blockComplete_emits C (appended x s)

/-! ## The words of the continuous-run test -/

/-- The comparison finds a word that equals the one before it, `p` being before the first (R159). -/
theorem crngWords_fst (p : Word32) (ws : List Word32) :
    (crngWords p ws).1 = true ↔ ∃ t, t < ws.length ∧ ws[t]? = (p :: ws)[t]? := by
  induction ws generalizing p with
  | nil => simp [crngWords_nil]
  | cons w ws ih =>
    rw [crngWords_cons, Bool.or_eq_true, decide_eq_true_eq, ih]
    constructor
    · rintro (hw | ⟨t, ht, heq⟩)
      · exact ⟨0, by simp, by simp [hw]⟩
      · exact ⟨t + 1, by simpa using ht, by simpa using heq⟩
    · rintro ⟨t, ht, heq⟩
      cases t with
      | zero => exact .inl (by simpa using heq)
      | succ t => exact .inr ⟨t, by simpa using ht, by simpa using heq⟩

/-- The new continuous state is the last word (R159). -/
theorem crngWords_snd_concat (p w : Word32) (ws : List Word32) : (crngWords p (ws ++ [w])).2 = w := by
  induction ws generalizing p with
  | nil => rfl
  | cons v ws ih => rw [List.cons_append, crngWords_cons, ih]

/-- Word `t` of a block, little-endian (R57, R158). -/
def blockWord (B : List Byte) (t : Nat) : Word32 := littleEndian ((B.drop (4 * t)).take 4)

theorem getLsbD_blockWord (B : List Byte) (t : Nat) {i k : Nat} (hi : i < 4) (hk : k < 8) :
    (blockWord B t).getLsbD (8 * i + k) = (B.getD (4 * t + i) 0).getLsbD k := by
  have hbyte : ((B.drop (4 * t)).take 4).getD i 0 = B.getD (4 * t + i) 0 := by
    simp only [List.getD_eq_getElem?_getD, List.getElem?_take_of_lt hi, List.getElem?_drop]
  rw [blockWord, getLsbD_littleEndian (List.length_take_le ..), show (8 * i + k) / 8 = i by omega,
    show (8 * i + k) % 8 = k by omega, hbyte]

/-- The test on a block goes over its 625 words (R158, R159). -/
theorem crng_block {B : List Byte} (hB : B.length = 2500) (last : Word32) :
    crng specConfig B last = crngWords last ((List.range 625).map (blockWord B)) := by
  have hwords : blockWords 4 625 B = (List.range 625).map (blockWord B) := by
    refine List.ext_getElem? fun t => ?_
    by_cases ht : t < 625
    · rw [getElem_blockWords B ht, List.getElem?_map, List.getElem?_range ht]
      rfl
    · rw [List.getElem?_eq_none (by simpa using ht), List.getElem?_eq_none (by simpa using ht)]
  rw [← hwords]
  simp only [crng, hB, specConfig]

theorem crng_fails_iff {B : List Byte} (hB : B.length = 2500) (last : Word32) :
    (crng specConfig B last).1 = true ↔
      blockWord B 0 = last ∨ ∃ t, t < 624 ∧ blockWord B (t + 1) = blockWord B t := by
  rw [crng_block hB, crngWords_fst, List.length_map, List.length_range]
  have hword : ∀ t, t < 625 → ((List.range 625).map (blockWord B))[t]? = some (blockWord B t) := fun t ht => by
    rw [List.getElem?_map, List.getElem?_range ht]
    rfl
  constructor
  · rintro ⟨t, ht, heq⟩
    rw [hword t ht] at heq
    cases t with
    | zero => exact .inl (by simpa using heq)
    | succ t =>
      rw [List.getElem?_cons_succ, hword t (by omega)] at heq
      exact .inr ⟨t, by omega, Option.some.inj heq⟩
  · rintro (hfirst | ⟨t, ht, heq⟩)
    · exact ⟨0, by decide, by rw [hword 0 (by decide), hfirst]; rfl⟩
    · exact ⟨t + 1, by omega, by
        rw [hword (t + 1) (by omega), List.getElem?_cons_succ, hword t (by omega), heq]⟩

theorem crng_state {B : List Byte} (hB : B.length = 2500) (last : Word32) :
    (crng specConfig B last).2 = blockWord B 624 := by
  rw [crng_block hB, List.range_succ, List.map_append, List.map_singleton, crngWords_snd_concat]

/-! ## The elements that the extraction works on -/

/-- R66: the same ACC, HBUF, counters, HASH_READY and monitor; the push counter is the model's own (log 14). -/
def SameExtraction (s t : State) : Prop :=
  s.acc = t.acc ∧ s.bitcnt = t.bitcnt ∧ s.bytecnt = t.bytecnt ∧ s.hbuf = t.hbuf ∧ s.hpos = t.hpos ∧
    s.hashReady = t.hashReady ∧ s.fipsLast32 = t.fipsLast32 ∧ s.lastMask = t.lastMask ∧ s.pushes = t.pushes

section
variable {s t : State} (h : SameExtraction s t)
include h

theorem sameExtraction_appended (x : Bool) : SameExtraction (appended x s) (appended x t) := by
  obtain ⟨hacc, hbit, hbyte, hhbuf, hpos, hready, hlast, hmask, hpush⟩ := h
  simp [SameExtraction, *]

theorem sameExtraction_blockComplete (C : Config) : SameExtraction (blockComplete C s) (blockComplete C t) := by
  obtain ⟨hacc, _, _, hhbuf, hpos, hready, hlast, _, hpush⟩ := h
  have hverdict : verdict C s = verdict C t := by rw [verdict, verdict, completedBlock, completedBlock, hacc, hlast]
  simp [SameExtraction, *]

theorem sameExtraction_outputBit (C : Config) (x : Bool) : SameExtraction (outputBit C x s) (outputBit C x t) := by
  obtain ⟨_, _, hbyte, _⟩ := sameExtraction_appended h x
  rw [outputBit_eq, outputBit_eq, completionCheck, completionCheck, hbyte]
  split
  · exact sameExtraction_blockComplete (sameExtraction_appended h x) C
  · exact sameExtraction_appended h x

theorem sameExtraction_rejectBit (C : Config) (x : Bool) : SameExtraction (rejectBit C x s) (rejectBit C x t) := by
  obtain ⟨hacc, hbit, hbyte, hhbuf, hpos, hready, hlast, hmask, hpush⟩ := h
  simp [SameExtraction, rejectBit, readyNow, *]

theorem sameExtraction_runClasses (C : Config) (ps : List PairClass) :
    SameExtraction (runClasses C ps s) (runClasses C ps t) :=
  runClasses_keeps_rel (P := SameExtraction) (fun x _ _ hst => sameExtraction_outputBit hst C x)
    (fun x _ _ hst => sameExtraction_rejectBit hst C x) ps h

end

/-! ## The sample that is due -/

section
variable {s : State} {b : Byte} (hrun : s.env.phase = .running) (hpending : s.pending = false)
include hrun hpending

/-- The next sample of the chunk in progress is due, whatever is at the port (log 9). -/
theorem dueSample_of_chunk {bs : List Byte} (hchunk : s.env.chunk = b :: bs) : s.dueSample = some b := by
  simp only [State.dueSample, hrun, hpending, hchunk]

/-- Without a chunk in progress, the sample at the port is due. -/
theorem dueSample_of_port {rest : List HostAct} (hchunk : s.env.chunk = []) (hport : s.env.port = .present b :: rest) :
    s.dueSample = some b := by
  simp only [State.dueSample, hrun, hpending, hchunk, hport]

end

theorem takeSample_of_chunk {s : State} {b : Byte} {bs : List Byte} (hchunk : s.env.chunk = b :: bs) :
    s.takeSample = s.withEnv { s.env with chunk := bs } := by
  simp only [State.takeSample, hchunk]

theorem takeSample_of_port {s : State} {a : HostAct} {rest : List HostAct} (hchunk : s.env.chunk = [])
    (hport : s.env.port = a :: rest) : s.takeSample = s.withEnv { s.env with port := rest } := by
  simp only [State.takeSample, State.popPort, hchunk, hport, List.tail_cons]

/-- The step that takes a due sample answers a next state (R210). -/
theorem step_completes_of_due {s : State} {b : Byte} (hdue : s.dueSample = some b) : ∃ t, step s = .next t :=
  ⟨_, (step_of_due hdue).trans (exec_decodeWord_s8 b s.takeSample)⟩

end Sys2Proof.Machine

open Sys2Proof Sys2Proof.Machine

/-- Settles O24: a sample has three pair steps, too few to close a second block. -/
theorem sampleEmitsAtMostOneGroup : Obligations.SampleEmitsAtMostOneGroup := by
  unfold Obligations.SampleEmitsAtMostOneGroup
  intro b s hbit hbyte
  obtain ⟨g, l, hout, hevt, hlen, hgroup⟩ :=
    runClasses_emits specConfig (sampleClasses b) ⟨hbit, hbyte⟩ (by simp [sampleClasses])
  exact ⟨_, g, l, exec_decodeWord_s8 b s, hout, hevt, hlen, hgroup⟩

/-- Settles O33: the words are `blockWord`, and the comparison goes over them in order. -/
theorem continuousRunComparesNeighbours : Obligations.ContinuousRunComparesNeighbours := by
  unfold Obligations.ContinuousRunComparesNeighbours
  intro B last hB
  exact ⟨blockWord B, fun t _ _ _ hi hk => getLsbD_blockWord B t hi hk, crng_fails_iff hB last, crng_state hB last⟩

/-- Settles O41: output bits and rejected bits keep two states alike in what the extraction works on. -/
theorem extractionIgnoresTheMode : Obligations.ExtractionIgnoresTheMode := by
  unfold Obligations.ExtractionIgnoresTheMode
  intro i s t s' t' hsame hs ht
  rw [exec_eq, Host.Outcome.next.injEq] at hs ht
  subst hs ht
  exact sameExtraction_runClasses hsame specConfig (instrClasses i)

/-- Settles O48: the sample of the chunk or of the port is due, and the step runs it whole. -/
theorem stepRunsTheDecodedWord : Obligations.StepRunsTheDecodedWord := by
  unfold Obligations.StepRunsTheDecodedWord
  intro s b hrun htaken
  have hpending : s.pending = false := by simpa [State.pending] using htaken
  refine ⟨fun bs hchunk => ?_, fun rest hchunk hport => ?_⟩
  · have hdue := dueSample_of_chunk hrun hpending hchunk
    exact ⟨by rw [step_of_due hdue, takeSample_of_chunk hchunk]; rfl, step_completes_of_due hdue⟩
  · have hdue := dueSample_of_port hrun hpending hchunk hport
    exact ⟨by rw [step_of_due hdue, takeSample_of_port hchunk hport]; rfl, step_completes_of_due hdue⟩

end

section
/-! The encodings (R70-R78, R81): a sample byte and its four fields, a pair field and its class, an event record and its
byte, and the samples of the assembler. -/

namespace Sys2Proof.Machine

/-! ## A sample byte and its fields -/

section
variable (ign f2 f1 f0 : BitVec 2)

/-- The four fields of a byte put together from them (R70). -/
theorem pairField_zero_concat : pairField (ign ++ f2 ++ f1 ++ f0) 0 = f0 :=
  (BitVec.extractLsb'_append_eq_of_add_le (by decide)).trans BitVec.extractLsb'_eq_self

theorem pairField_one_concat : pairField (ign ++ f2 ++ f1 ++ f0) 1 = f1 :=
  (BitVec.extractLsb'_append_eq_of_le (by decide)).trans
    ((BitVec.extractLsb'_append_eq_of_add_le (by decide)).trans BitVec.extractLsb'_eq_self)

theorem pairField_two_concat : pairField (ign ++ f2 ++ f1 ++ f0) 2 = f2 :=
  (BitVec.extractLsb'_append_eq_of_le (by decide)).trans
    ((BitVec.extractLsb'_append_eq_of_le (by decide)).trans
      ((BitVec.extractLsb'_append_eq_of_add_le (by decide)).trans BitVec.extractLsb'_eq_self))

theorem ignField_concat : ignField (ign ++ f2 ++ f1 ++ f0) = ign :=
  (BitVec.extractLsb'_append_eq_of_le (by decide)).trans
    ((BitVec.extractLsb'_append_eq_of_le (by decide)).trans
      ((BitVec.extractLsb'_append_eq_of_le (by decide)).trans BitVec.extractLsb'_eq_self))

/-- The classes of a byte put together from its fields. -/
theorem sampleClasses_concat :
    sampleClasses (ign ++ f2 ++ f1 ++ f0) = [.ofField f0, .ofField f1, .ofField f2] := by
  rw [sampleClasses, pairField_zero_concat, pairField_one_concat, pairField_two_concat]

end

/-- A byte is its four fields put together (R70, R71). -/
theorem concat_fields (b : Byte) : ignField b ++ pairField b 2 ++ pairField b 1 ++ pairField b 0 = b := by
  unfold ignField pairField
  rw [BitVec.extractLsb'_append_extractLsb'_eq_extractLsb' (by decide),
    BitVec.extractLsb'_append_extractLsb'_eq_extractLsb' (by decide),
    BitVec.extractLsb'_append_extractLsb'_eq_extractLsb' (by decide)]
  exact BitVec.extractLsb'_eq_self

/-! ## Pair fields and pair classes -/

theorem ofField_field (p : PairClass) : PairClass.ofField p.field = p := by cases p <;> rfl

theorem field_ofField : ∀ f : BitVec 2, (PairClass.ofField f).field = f := by decide

/-- `x` is the lower bit of the pair field (R71). -/
theorem pairX_ofField : ∀ f : BitVec 2, pairX (.ofField f) = f.getLsbD 0 := by decide

/-- `y` is the higher bit of the pair field (R71). -/
theorem pairY_ofField : ∀ f : BitVec 2, pairY (.ofField f) = f.getLsbD 1 := by decide

/-- Bit `i` of pair field `k` is bit `2k + i` of the sample (R71). -/
theorem getLsbD_pairField (b : Byte) (k : Nat) {i : Nat} (hi : i < 2) :
    (pairField b k).getLsbD i = b.getLsbD (2 * k + i) := by
  simp [pairField, hi]

/-- A lone pair field runs its class (R72, R75). -/
theorem exec_decodeWord_p2 (f : BitVec 2) (s : State) :
    exec (decodeWord (.p2 f)) s = .next (runClass specConfig (.ofField f) s) := by
  rw [decodeWord]
  cases PairClass.ofField f <;> rfl

/-! ## Instructions and words -/

/-- A SAMPLE occupies one byte of a stream, and the decoder reads it back (R70, R75). -/
theorem decodeSample_concat (p0 p1 p2 : PairClass) (ign : BitVec 2) :
    decodeSample (ign ++ p2.field ++ p1.field ++ p0.field) = .sample p0 p1 p2 ign := by
  rw [decodeSample, pairField_zero_concat, pairField_one_concat, pairField_two_concat, ignField_concat, ofField_field,
    ofField_field, ofField_field]

/-- The byte of a decoded sample is the sample. -/
theorem encodeBytes_decodeSample (b : Byte) : encodeBytes (decodeSample b) = [b] := by
  rw [decodeSample, encodeBytes, field_ofField, field_ofField, field_ofField, concat_fields]

theorem decodeWord_encode (i : Instr) : decodeWord (encode i) = i := by
  cases i with
  | sample p0 p1 p2 ign => exact decodeSample_concat p0 p1 p2 ign
  | vnRej0 => rfl
  | vnOut1 => rfl
  | vnOut0 => rfl
  | vnRej1 => rfl

theorem encode_ofClass (p : PairClass) : encode (.ofClass p) = .p2 p.field := by cases p <;> rfl

theorem encode_decodeWord (w : InWord) : encode (decodeWord w) = w := by
  cases w with
  | s8 b => rw [decodeWord, decodeSample, encode, field_ofField, field_ofField, field_ofField, concat_fields]
  | p2 f => rw [decodeWord, encode_ofClass, field_ofField]

theorem decodeChunk_encodeBytes (is : List Instr) (h : ∀ i ∈ is, ∃ p0 p1 p2 ign, i = .sample p0 p1 p2 ign) :
    decodeChunk (is.flatMap encodeBytes) = is := by
  induction is with
  | nil => rfl
  | cons i is ih =>
    rw [List.forall_mem_cons] at h
    obtain ⟨⟨p0, p1, p2, ign, rfl⟩, hrest⟩ := h
    exact congrArg₂ List.cons (decodeSample_concat p0 p1 p2 ign) (ih hrest)

theorem encodeBytes_decodeChunk (bs : List Byte) : (decodeChunk bs).flatMap encodeBytes = bs := by
  rw [decodeChunk, List.flatMap_map]
  simp [encodeBytes_decodeSample]

/-! ## Event records -/

theorem ofBits_bits (c : EventCode) : EventCode.ofBits c.bits = some c := by cases c <;> rfl

/-- Only the five codes are read back, each to itself (R78). -/
theorem bits_of_ofBits : ∀ (f : BitVec 3) (c : EventCode), EventCode.ofBits f = some c → c.bits = f := by
  decide

theorem ofBits_of_five_le : ∀ f : BitVec 3, 5 ≤ f.toNat → EventCode.ofBits f = none := by decide

theorem code_byte (e : Event) : e.byte.extractLsb' 0 3 = e.code.bits :=
  (BitVec.extractLsb'_append_eq_of_add_le (by decide)).trans BitVec.extractLsb'_eq_self

theorem mask_byte (e : Event) : e.byte.extractLsb' 3 5 = e.mask :=
  (BitVec.extractLsb'_append_eq_of_le (by decide)).trans BitVec.extractLsb'_eq_self

theorem ofByte_byte (e : Event) : Event.ofByte e.byte = some e := by
  rw [Event.ofByte, code_byte, mask_byte, ofBits_bits]
  rfl

theorem ofByte_of_five_le {r : Byte} (h : 5 ≤ (r.extractLsb' 0 3).toNat) : Event.ofByte r = none := by
  rw [Event.ofByte, ofBits_of_five_le _ h]
  rfl

/-- A byte is its mask and its code put together (R78). -/
theorem byte_of_ofByte {r : Byte} {e : Event} (h : Event.ofByte r = some e) : e.byte = r := by
  obtain ⟨c, hc, rfl⟩ := Option.map_eq_some_iff.mp h
  rw [Event.byte, bits_of_ofBits _ c hc, BitVec.extractLsb'_append_extractLsb'_eq_extractLsb' (by decide)]
  exact BitVec.extractLsb'_eq_self

/-! ## OSTREAM -/

/-! What one pair field of an assembled sample appends and pushes: a bit of T, or a padding zero. -/

@[simp] theorem outputBits_outField (t : Bool) (ps : List PairClass) :
    outputBits (.ofField (outField t) :: ps) = t :: outputBits ps := by cases t <;> rfl

@[simp] theorem rejectedBits_outField (t : Bool) (ps : List PairClass) :
    rejectedBits (.ofField (outField t) :: ps) = rejectedBits ps := by cases t <;> rfl

@[simp] theorem outputBits_padding (ps : List PairClass) : outputBits (.ofField 0#2 :: ps) = outputBits ps := rfl

@[simp] theorem rejectedBits_padding (ps : List PairClass) :
    rejectedBits (.ofField 0#2 :: ps) = false :: rejectedBits ps := rfl

@[simp] theorem outputBits_nil : outputBits [] = [] := rfl

@[simp] theorem rejectedBits_nil : rejectedBits [] = [] := rfl

@[simp] theorem outStream_nil : outStream [] = [] := rfl

@[simp] theorem rejStream_nil : rejStream [] = [] := rfl

theorem outStream_cons (b : Byte) (bs : List Byte) :
    outStream (b :: bs) = outputBits (sampleClasses b) ++ outStream bs := rfl

theorem rejStream_cons (b : Byte) (bs : List Byte) :
    rejStream (b :: bs) = rejectedBits (sampleClasses b) ++ rejStream bs := rfl

/-- The samples of OSTREAM T append T (R81). -/
theorem outStream_ostream : ∀ T : List Bool, outStream (ostream T) = T
  | [] => rfl
  | [t0] => by
    rw [ostream, outStream_cons, sampleClasses_concat]
    simp
  | [t0, t1] => by
    rw [ostream, outStream_cons, sampleClasses_concat]
    simp
  | t0 :: t1 :: t2 :: rest => by
    rw [ostream, outStream_cons, outStream_ostream rest, obits, sampleClasses_concat]
    simp

/-- OSTREAM T takes one sample for three bits (R81). -/
theorem length_ostream : ∀ T : List Bool, (ostream T).length = (T.length + 2) / 3
  | [] => rfl
  | [_] => by simp [ostream]
  | [_, _] => by simp [ostream]
  | t0 :: t1 :: t2 :: rest => by
    rw [ostream, List.length_cons, length_ostream rest]
    simp only [List.length_cons]
    omega

/-- A full sample of OSTREAM T pushes nothing, the last one a 0 for each unused field (R81). -/
theorem rejStream_ostream : ∀ T : List Bool,
    rejStream (ostream T) = List.replicate (3 * (ostream T).length - T.length) false
  | [] => rfl
  | [t0] => by
    rw [ostream, rejStream_cons, sampleClasses_concat]
    simp
  | [t0, t1] => by
    rw [ostream, rejStream_cons, sampleClasses_concat]
    simp
  | t0 :: t1 :: t2 :: rest => by
    rw [ostream, rejStream_cons, rejStream_ostream rest, obits, sampleClasses_concat]
    simp [Nat.mul_succ]

end Sys2Proof.Machine

open Sys2Proof Sys2Proof.Machine

/-- Settles O4: a word is its fields put together, and a field and its class determine each other. -/
theorem decodeAndEncodeAgree : Obligations.DecodeAndEncodeAgree := by
  unfold Obligations.DecodeAndEncodeAgree
  exact ⟨decodeWord_encode, encode_decodeWord, decodeChunk_encodeBytes, encodeBytes_decodeChunk⟩

/-- Settles O7: by recursion over T, three bits at a time. -/
theorem ostreamCarriesItsBits : Obligations.OstreamCarriesItsBits := by
  unfold Obligations.OstreamCarriesItsBits
  exact fun T => ⟨outStream_ostream T, length_ostream T, rejStream_ostream T⟩

/-- Settles O1: eight words, decoded. -/
theorem specWordsDecodeAsWritten : Obligations.SpecWordsDecodeAsWritten := by
  unfold Obligations.SpecWordsDecodeAsWritten
  decide

/-- Settles O2: `x` and `y` are the two bits of a pair field, which are bits `2k` and `2k + 1` of the sample. -/
theorem pairFieldsAreTheSampleBits : Obligations.PairFieldsAreTheSampleBits := by
  unfold Obligations.PairFieldsAreTheSampleBits
  intro b
  have hx : ∀ k, pairX (.ofField (pairField b k)) = b.getLsbD (2 * k) := fun k =>
    (pairX_ofField _).trans (getLsbD_pairField b k (by decide))
  have hy : ∀ k, pairY (.ofField (pairField b k)) = b.getLsbD (2 * k + 1) := fun k =>
    (pairY_ofField _).trans (getLsbD_pairField b k (by decide))
  exact ⟨_, _, _, _, rfl, hx 0, hy 0, hx 1, hy 1, hx 2, hy 2⟩

/-- Settles O3: the table of R72 by evaluation, the effects by what a lone pair field runs. -/
theorem pairFieldSelectsItsEffect : Obligations.PairFieldSelectsItsEffect := by
  unfold Obligations.PairFieldSelectsItsEffect
  refine ⟨by decide, by decide, by decide, by decide, fun s => ?_⟩
  exact ⟨exec_decodeWord_p2 0b00#2 s, exec_decodeWord_p2 0b01#2 s, exec_decodeWord_p2 0b10#2 s,
    exec_decodeWord_p2 0b11#2 s⟩

/-- Settles O6: code and mask are the two fields of the byte, and only the five codes are read back. -/
theorem eventRecordsRoundTrip : Obligations.EventRecordsRoundTrip := by
  unfold Obligations.EventRecordsRoundTrip
  exact ⟨by decide, fun e => ⟨ofByte_byte e, code_byte e, mask_byte e⟩, fun _ => ofByte_of_five_le,
    fun _ _ => byte_of_ofByte⟩

end

section
/-! The ledger (R78, R183, R200, R201, R222) and a completion (R125, R126, R160): what each pair step and the host do to
what OUT, EVT, PREV and HAVE_PREV say about each other, and the five bits of the failure mask (R77). -/

namespace Sys2Proof.Machine

/-! ## The ledger under one pair step -/

@[simp] theorem eventCount_concat (c : EventCode) (l : List Event) (e : Event) :
    eventCount c (l ++ [e]) = eventCount c l + if e.code = c then 1 else 0 := by
  simp [eventCount, List.countP_singleton]

/-- The ledger speaks of MODE, PREV, HAVE_PREV, OUT and EVT, of the bytes taken, and of a HASH_READY that is 0. -/
theorem ledger_congr {s t : State} (hmode : t.mode = s.mode) (hprev : t.prev = s.prev)
    (hhave : t.havePrev = s.havePrev) (hout : t.out = s.out) (hevt : t.evt = s.evt)
    (hready : t.hashReady = false → s.hashReady = false) (htaken : t.env.taken ≤ s.out.length) (h : s.Ledger) :
    t.Ledger := by
  obtain ⟨hxor, haes, hwf, _⟩ := h
  refine ⟨?_, fun hm => ?_, ?_⟩
  · simpa only [State.XorLedger, hmode, hprev, hhave, hout, hevt] using hxor
  · obtain ⟨hp, hh, hretain, hemit, hlen, hquiet⟩ := haes (hmode ▸ hm)
    exact ⟨hprev.trans hp, hhave.trans hh, hevt ▸ hretain, hevt ▸ hemit, by rw [hout, hevt, hlen],
      fun hr => hout.trans (hquiet (hready hr))⟩
  · exact ⟨hevt ▸ hwf, hout ▸ htaken⟩

theorem ledger_withEnv {s : State} {e : HostSide} (htaken : e.taken ≤ s.out.length) (h : s.Ledger) :
    (s.withEnv e).Ledger := ledger_congr (s := s) rfl rfl rfl rfl rfl id htaken h

theorem ledger_takeSample {s : State} (h : s.Ledger) : s.takeSample.Ledger := by
  obtain ⟨c, p, htake⟩ := takeSample_eq s
  rw [htake]
  exact ledger_withEnv h.ports.2 h

theorem ledger_appended (x : Bool) {s : State} (h : s.Ledger) : (appended x s).Ledger :=
  ledger_congr (appended_mode x s) (appended_prev x s) (appended_havePrev x s) (appended_out x s) (appended_evt x s)
    (appended_hashReady x s ▸ id) (appended_env x s ▸ h.ports.2) h

theorem ledger_rejectBit (C : Config) (x : Bool) (s : State) (h : s.Ledger) : (rejectBit C x s).Ledger :=
  ledger_congr (s := s) rfl rfl rfl rfl rfl
    (fun hr => (Bool.or_eq_false_iff.mp ((rejectBit_hashReady C x s).symm.trans hr)).1) h.ports.2 h

/-- A completion in XOR mode: nothing is counted for a failed block, the first accepted one is retained, and each later
one adds an emission of 2500 bytes (R181, R183). -/
theorem xorLedger_blockComplete (C : Config) {s : State} (h : s.XorLedger) : (blockComplete C s).XorLedger := by
  intro hmode
  rw [blockComplete_mode] at hmode
  obtain ⟨haes, hdrop, hretain, hprev, hnone, hlen⟩ := h hmode
  rcases blockComplete_cases C s with ⟨_, hp, hhave, _, ho, he⟩ | ⟨_, _, hfirst, hp, hhave, _, ho, he⟩ |
    ⟨_, _, hlater, hp, hhave, _, ho, he⟩ | ⟨_, hm, _⟩ | ⟨_, hm, _⟩
  · rw [hp, hhave, ho, he]
    simpa using ⟨haes, hdrop, hretain, hprev, hnone, hlen⟩
  · rw [hfirst] at hretain
    simp [hhave, ho, he, haes, hdrop, hretain, hnone hfirst, hlen]
  · rw [hlater] at hretain
    have hgroup := length_xorBlock s.prev (length_completedBlock s)
    have hgrown : (blockComplete C s).out.length = 2500 * (1 + (eventCount .emitXor s.evt + 1) - 1) := by
      rw [ho, List.length_append, hgroup, hlen, hretain, if_pos rfl]
      omega
    simp [hhave, he, haes, hdrop, hretain, hgrown]
  · rw [hmode] at hm; cases hm
  · rw [hmode] at hm; cases hm

/-- A completion in AES mode: PREV and HAVE_PREV stay, and with HASH_READY at 1 an accepted block adds an emission of
2512 bytes (R200, R201). -/
theorem aesLedger_blockComplete (C : Config) {s : State} (h : s.AesLedger) : (blockComplete C s).AesLedger := by
  intro hmode
  rw [blockComplete_mode] at hmode
  obtain ⟨hprev, hnone, hretain, hemit, hlen, hquiet⟩ := h hmode
  rw [blockComplete_hashReady]
  rcases blockComplete_cases C s with ⟨_, hp, hhave, _, ho, he⟩ | ⟨_, hm, _⟩ | ⟨_, hm, _⟩ |
    ⟨_, _, _, hp, hhave, _, ho, he⟩ | ⟨_, _, hready, hp, hhave, _, ho, he⟩
  · rw [hp, hhave, ho, he]
    simpa using ⟨hprev, hnone, hretain, hemit, hlen, hquiet⟩
  · rw [hmode] at hm; cases hm
  · rw [hmode] at hm; cases hm
  · rw [hp, hhave, ho, he]
    simpa using ⟨hprev, hnone, hretain, hemit, hlen, hquiet⟩
  · have hgroup := length_ciphertext (C := C) (hb := s.hbuf) (length_completedBlock s)
    simp [hp, hhave, ho, he, hprev, hnone, hretain, hemit, hlen, hready, hgroup, Nat.mul_succ]

/-- The record of a completion is well-formed: a mask other than 0 goes with EV_FIPS_FAIL and with no other code (R78). -/
theorem blockComplete_logs_wellFormed (C : Config) (s : State) :
    ∃ e, (blockComplete C s).evt = s.evt ++ [e] ∧ e.wellFormed = true := by
  rcases blockComplete_cases C s with ⟨hk, _, _, _, _, he⟩ | ⟨_, _, _, _, _, _, _, he⟩ | ⟨_, _, _, _, _, _, _, he⟩ |
    ⟨_, _, _, _, _, _, _, he⟩ | ⟨_, _, _, _, _, _, _, he⟩
  · exact ⟨_, he, bne_iff_ne.mpr hk⟩
  · exact ⟨_, he, rfl⟩
  · exact ⟨_, he, rfl⟩
  · exact ⟨_, he, rfl⟩
  · exact ⟨_, he, rfl⟩

theorem portsAgree_blockComplete (C : Config) {s : State} (h : s.PortsAgree) : (blockComplete C s).PortsAgree := by
  obtain ⟨hwf, htaken⟩ := h
  obtain ⟨e, he, hewf⟩ := blockComplete_logs_wellFormed C s
  obtain ⟨g, l, hout, _⟩ := blockComplete_emits C s
  refine ⟨?_, ?_⟩
  · rw [he, List.forall_mem_append, List.forall_mem_singleton]
    exact ⟨hwf, hewf⟩
  · rw [blockComplete_env, hout, List.length_append]
    exact Nat.le_add_right_of_le htaken

theorem ledger_blockComplete (C : Config) {s : State} (h : s.Ledger) : (blockComplete C s).Ledger :=
  ⟨xorLedger_blockComplete C h.xor, aesLedger_blockComplete C h.aes, portsAgree_blockComplete C h.ports⟩

theorem ledger_outputBit (C : Config) (x : Bool) (s : State) (h : s.Ledger) : (outputBit C x s).Ledger := by
  rcases outputBit_or C x s with heq | heq <;> rw [heq]
  · exact ledger_appended x h
  · exact ledger_blockComplete C (ledger_appended x h)

/-! ## The verdict of a completion -/

/-- The bit that fills the block completes the block that it closes. -/
theorem verdict_appended (x : Bool) (s : State) : verdict specConfig (appended x s) = closingVerdict x s := by
  rw [verdict, completedBlock, appended_acc, appended_fipsLast32]
  rfl

/-- Each result has a bit of the mask to itself (R77). -/
theorem getLsbD_maskBit (failed : Bool) (pos i : Nat) :
    (maskBit failed pos).getLsbD i = (failed && (decide (pos < 5) && decide (pos = i))) := by
  cases failed with
  | false => simp [maskBit]
  | true => exact BitVec.getLsbD_twoPow pos i

/-- The five results are read back from the mask at the positions of R77. -/
theorem getLsbD_failureMask (mono poker runs long cont : Bool) :
    (failureMask mono poker runs long cont).getLsbD 0 = mono ∧
    (failureMask mono poker runs long cont).getLsbD 1 = poker ∧
    (failureMask mono poker runs long cont).getLsbD 2 = runs ∧
    (failureMask mono poker runs long cont).getLsbD 3 = long ∧
    (failureMask mono poker runs long cont).getLsbD 4 = cont := by
  simp only [failureMask, BitVec.getLsbD_or, getLsbD_maskBit]
  simp

end Sys2Proof.Machine

open Sys2Proof Sys2Proof.Machine

/-- Settles O59: output bits, rejected bits and the taking of a sample keep the ledger, the host moves the bytes taken
no further than the end of OUT, and a reset establishes it. -/
theorem stepKeepsTheLedger : Obligations.StepKeepsTheLedger := by
  unfold Obligations.StepKeepsTheLedger
  intro s t hs h
  rcases step_cases h with ⟨b, _, rfl⟩ | ⟨e, rfl, htaken⟩ | ⟨m, _, e, _, rfl, _, htaken, _⟩
  · exact runClasses_keeps (ledger_outputBit specConfig) (ledger_rejectBit specConfig) _ (ledger_takeSample hs)
  · obtain ⟨_, hbound⟩ := hs.ports
    exact ledger_withEnv (htaken.elim (fun heq => heq ▸ hbound) And.right) hs
  · exact ledger_afterReset specConfig m htaken

/-- Settles O18: the bit that fills the block is an append and a completion. -/
theorem completionResetsTheAccumulator : Obligations.CompletionResetsTheAccumulator := by
  unfold Obligations.CompletionResetsTheAccumulator
  intro x s hlast
  obtain ⟨e, he⟩ := blockComplete_logs_one specConfig (appended x s)
  rw [appended_evt] at he
  refine ⟨blockComplete specConfig (appended x s), by rw [exec_outInstr, outputBit_closing hlast], ?_⟩
  simp [verdict_appended, he]

/-- Settles O25: the mask is the OR of five single bits at their positions. -/
theorem maskHoldsTheFiveVerdicts : Obligations.MaskHoldsTheFiveVerdicts := by
  unfold Obligations.MaskHoldsTheFiveVerdicts
  intro B last
  obtain ⟨hmono, hpoker, hruns, hlong, hcont⟩ := getLsbD_failureMask
    (monobit specLimits (seqBits .lsbFirst B)) (poker specLimits (seqBits .lsbFirst B))
    (runsFail specLimits (runsOf (seqBits .lsbFirst B))) (longRunFails specLimits (runsOf (seqBits .lsbFirst B)))
    (crng specConfig B last).1
  exact ⟨hmono, hpoker, hruns, hlong, hcont, rfl⟩

end

section
/-! The extractor and the debiaser (R100-R105, R120, R121, R130): what one pair step writes, and what the pair steps of
a sample that closes no block append, push and leave unchanged. -/

namespace Sys2Proof.Machine

/-! ## One pair step -/

/-- A pair class as an instruction runs its pair step (R75, R101). -/
theorem exec_ofClass (p : PairClass) (s : State) : exec (.ofClass p) s = .next (runClass specConfig p s) := by
  cases p <;> rfl

/-- R130 with the value 0: the bit is cleared and nothing is set. -/
theorem putBit_false (v : Byte) (k : Nat) : putBit v k false = v &&& ~~~(1#8 <<< k) := by simp [putBit, bitByte]

/-- A byte written back where it was read leaves a canonical array as it is. -/
theorem Mem.write_read {size a : Nat} {m : Mem} (ha : a < size) (h : m.wf size = true) : m.write a (m.read a) = m := by
  refine Mem.ext (Mem.wf_write ha h) h fun b => ?_
  rw [Mem.read_write h]
  split
  · next hab => rw [hab]
  · rfl

/-! ## The bits of a sample -/

/-- The pair fields of a sample in ascending order (R71, R106). -/
theorem sampleClasses_eq_map (b : Byte) : sampleClasses b = [0, 1, 2].map fun k => .ofField (pairField b k) := rfl

theorem pairX_pairField (b : Byte) (k : Nat) : pairX (.ofField (pairField b k)) = b.getLsbD (2 * k) :=
  (pairX_ofField _).trans (getLsbD_pairField b k (by decide))

theorem pairY_pairField (b : Byte) (k : Nat) : pairY (.ofField (pairField b k)) = b.getLsbD (2 * k + 1) :=
  (pairY_ofField _).trans (getLsbD_pairField b k (by decide))

/-- R101, R108: the output bits of a sample are the lower bits of its unequal pairs. -/
theorem outputBits_sampleClasses (b : Byte) :
    outputBits (sampleClasses b) =
      ([0, 1, 2].filter fun k => b.getLsbD (2 * k) != b.getLsbD (2 * k + 1)).map fun k => b.getLsbD (2 * k) := by
  simp only [outputBits, sampleClasses_eq_map, List.filter_map, List.map_map, Function.comp_def, pairX_pairField,
    pairY_pairField]

/-- R101, R108: the rejected bits of a sample are the lower bits of its equal pairs. -/
theorem rejectedBits_sampleClasses (b : Byte) :
    rejectedBits (sampleClasses b) =
      ([0, 1, 2].filter fun k => !(b.getLsbD (2 * k) != b.getLsbD (2 * k + 1))).map fun k => b.getLsbD (2 * k) := by
  simp only [rejectedBits, sampleClasses_eq_map, List.filter_map, List.map_map, Function.comp_def, pairX_pairField,
    pairY_pairField, bne, Bool.not_not]

/-! ## Pair steps that close no block -/

/-- The states from which appends and pushes land where R51 and R52 say. -/
structure Storable (s : State) : Prop where
  accForm  : Mem.wf 2500 s.acc = true
  hbufForm : Mem.wf 2500 s.hbuf = true
  bitcnt   : s.bitcnt ≤ 7
  hpos     : s.hpos < 20000

/-- From `s` to `t` the bits `outs` are appended to ACC, in order from the fill position on (R51, R120, R121). -/
structure Appends (s : State) (outs : List Bool) (t : State) : Prop where
  bitcnt : t.bitcnt ≤ 7
  fill   : fillPos t = fillPos s + outs.length
  bits   : ∀ j k, k < 8 → t.acc.bitAt j k =
    (s.acc.bitAt j k || (decide (fillPos s ≤ 8 * j + k) && outs.getD (8 * j + k - fillPos s) false))

/-- From `s` to `t` the bits `rejs` are pushed into HBUF, in order from HPOS on around the cycle (R52, R130, R131). -/
structure Pushes (s : State) (rejs : List Bool) (t : State) : Prop where
  hpos      : t.hpos = (s.hpos + rejs.length) % 20000
  hashReady : t.hashReady = (s.hashReady || decide (20000 ≤ s.hpos + rejs.length))
  bits      : ∀ j k, k < 8 → t.hbuf.bitAt j k =
    if 8 * j + k < 20000 then (rejs[(8 * j + k + 20000 - s.hpos) % 20000]?).getD (s.hbuf.bitAt j k)
    else s.hbuf.bitAt j k

/-- From `s` to `t` the bits `outs` are appended and the bits `rejs` are pushed, and nothing but ACC, HBUF, their
counters, HASH_READY and the model's push counter (log 14) changes. -/
structure Extracts (s : State) (outs rejs : List Bool) (t : State) : Prop where
  appends : Appends s outs t
  pushes  : Pushes s rejs t
  frame   : t.mode = s.mode ∧ t.prev = s.prev ∧ t.havePrev = s.havePrev ∧ t.fipsLast32 = s.fipsLast32 ∧
    t.lastMask = s.lastMask ∧ t.keyreg = s.keyreg ∧ t.out = s.out ∧ t.evt = s.evt ∧ t.env = s.env

/-- No pair step: nothing changes. -/
theorem extracts_nil {s : State} (h : Storable s) : Extracts s [] [] s where
  appends := ⟨h.bitcnt, rfl, fun j k _ => by simp⟩
  pushes := ⟨(Nat.mod_eq_of_lt h.hpos).symm, by simp [h.hpos], fun j k _ => by simp⟩
  frame := ⟨rfl, rfl, rfl, rfl, rfl, rfl, rfl, rfl, rfl⟩

section
variable (x : Bool) {s t : State} {outs rejs : List Bool}

theorem storable_appended (h : Storable s) (hbyte : s.bytecnt < 2500) : Storable (appended x s) where
  accForm := wf_acc_appended x hbyte h.accForm
  hbufForm := by simpa using h.hbufForm
  bitcnt := by
    have := h.bitcnt
    rw [appended_bitcnt]
    split <;> omega
  hpos := by simpa using h.hpos

theorem storable_rejectBit (h : Storable s) : Storable (rejectBit specConfig x s) where
  accForm := h.accForm
  hbufForm := wf_hbuf_rejectBit specConfig_packingOk x h.hbufForm h.hpos
  bitcnt := h.bitcnt
  hpos := hpos_rejectBit_lt x h.hpos

/-- An append in front: its bit is the first, at the fill position. -/
theorem appends_of_appended (hs : Storable s) (h : Appends (appended x s) outs t) : Appends s (x :: outs) t := by
  refine ⟨h.bitcnt, ?_, fun j k hk => ?_⟩
  · rw [h.fill, fillPos_appended, List.length_cons, Nat.add_assoc, Nat.add_comm 1]
  · rw [h.bits j k hk, fillPos_appended, bitAt_acc_appended x hs.accForm hs.bitcnt j hk]
    rcases Nat.lt_trichotomy (8 * j + k) (fillPos s) with hbefore | hat | hafter
    · simp [Nat.not_le.2 hbefore, Nat.ne_of_lt hbefore, show ¬ fillPos s + 1 ≤ 8 * j + k by omega]
    · simp [hat]
    · have hshift : 8 * j + k - fillPos s = 8 * j + k - (fillPos s + 1) + 1 := by omega
      simp [hshift, Nat.ne_of_gt hafter, Nat.le_of_lt hafter, hafter]

/-- A push in front: its bit is the first, at HPOS, and no later one comes around to it again. -/
theorem pushes_of_rejectBit (hs : Storable s) (hlen : rejs.length < 20000)
    (h : Pushes (rejectBit specConfig x s) rejs t) : Pushes s (x :: rejs) t := by
  have hpos := hs.hpos
  have hnext : (rejectBit specConfig x s).hpos = if s.hpos = 19999 then 0 else s.hpos + 1 := rfl
  have hready : (rejectBit specConfig x s).hashReady = (s.hashReady || decide (s.hpos = 19999)) := rfl
  refine ⟨?_, ?_, fun j k hk => ?_⟩
  · rw [h.hpos, hnext, List.length_cons]
    split <;> omega
  · rw [h.hashReady, hready, hnext, List.length_cons, Bool.or_assoc, ← Bool.decide_or]
    congr 2
    split <;> simp <;> omega
  · rw [h.bits j k hk, bitAt_hbuf_rejectBit x hs.hbufForm j hk, hnext]
    by_cases hin : 8 * j + k < 20000
    · rw [if_pos hin, if_pos hin]
      by_cases hat : 8 * j + k = s.hpos
      · have hfirst : (8 * j + k + 20000 - s.hpos) % 20000 = 0 := by omega
        have hlast : (8 * j + k + 20000 - if s.hpos = 19999 then 0 else s.hpos + 1) % 20000 = 19999 := by
          split <;> omega
        rw [hfirst, hlast, List.getElem?_eq_none (by omega), if_pos hat]
        rfl
      · have hshift : (8 * j + k + 20000 - s.hpos) % 20000 =
            (8 * j + k + 20000 - if s.hpos = 19999 then 0 else s.hpos + 1) % 20000 + 1 := by
          split <;> omega
        rw [hshift, List.getElem?_cons_succ, if_neg hat]
    · rw [if_neg hin, if_neg hin, if_neg (by omega)]

theorem extracts_of_appended (hs : Storable s) (h : Extracts (appended x s) outs rejs t) :
    Extracts s (x :: outs) rejs t where
  appends := appends_of_appended x hs h.appends
  pushes := ⟨by simpa using h.pushes.hpos, by simpa using h.pushes.hashReady, by simpa using h.pushes.bits⟩
  frame := by simpa using h.frame

theorem extracts_of_rejectBit (hs : Storable s) (hlen : rejs.length < 20000)
    (h : Extracts (rejectBit specConfig x s) outs rejs t) : Extracts s outs (x :: rejs) t where
  appends := ⟨h.appends.bitcnt, h.appends.fill, h.appends.bits⟩
  pushes := pushes_of_rejectBit x hs hlen h.pushes
  frame := h.frame

end

/-- The two kinds of pair step, each with its bit in front of its stream (R101, R108). -/
theorem runClass_cases (C : Config) (p : PairClass) (ps : List PairClass) (s : State) :
    (runClass C p s = outputBit C (pairX p) s ∧ outputBits (p :: ps) = pairX p :: outputBits ps ∧
      rejectedBits (p :: ps) = rejectedBits ps) ∨
    (runClass C p s = rejectBit C (pairX p) s ∧ outputBits (p :: ps) = outputBits ps ∧
      rejectedBits (p :: ps) = pairX p :: rejectedBits ps) := by
  cases p with
  | rej0 => exact .inr ⟨rfl, rfl, rfl⟩
  | out1 => exact .inl ⟨rfl, rfl, rfl⟩
  | out0 => exact .inl ⟨rfl, rfl, rfl⟩
  | rej1 => exact .inr ⟨rfl, rfl, rfl⟩

/-- Pair steps with too few output bits to fill the block, and no more pushes than HBUF has bits. -/
theorem extracts_runClasses (ps : List PairClass) {s : State} (hs : Storable s)
    (hroom : fillPos s + (outputBits ps).length < 20000) (hlen : (rejectedBits ps).length ≤ 20000) :
    Extracts s (outputBits ps) (rejectedBits ps) (runClasses specConfig ps s) := by
  induction ps generalizing s with
  | nil => exact extracts_nil hs
  | cons p ps ih =>
    rw [runClasses_step]
    rcases runClass_cases specConfig p ps s with ⟨hrun, houts, hrejs⟩ | ⟨hrun, houts, hrejs⟩
    · rw [houts, List.length_cons] at hroom
      rw [hrejs] at hlen
      have hbyte : s.bytecnt < 2500 := by unfold fillPos at hroom; omega
      have hopen : ¬ s.AtLastBit := fun hlast => by have := fillPos_of_atLastBit hlast; omega
      rw [houts, hrejs, hrun, outputBit_open hopen hbyte, ← appended_eq]
      exact extracts_of_appended (pairX p) hs (ih (storable_appended (pairX p) hs hbyte)
        (by rw [fillPos_appended]; omega) hlen)
    · rw [houts] at hroom
      rw [hrejs, List.length_cons] at hlen
      rw [houts, hrejs, hrun]
      exact extracts_of_rejectBit (pairX p) hs hlen (ih (storable_rejectBit (pairX p) hs) hroom (Nat.le_of_lt hlen))

end Sys2Proof.Machine

open Sys2Proof Sys2Proof.Machine

/-- Settles O10: the streams of a sample are read off its bits, and its three pair steps extract them. -/
theorem sampleAppendsAndPushesItsBits : Obligations.SampleAppendsAndPushesItsBits := by
  unfold Obligations.SampleAppendsAndPushesItsBits
  intro b s hacc hhbuf hbit hpos unequal outs rejs hroom
  have houts : outputBits (sampleClasses b) = outs := outputBits_sampleClasses b
  have hrejs : rejectedBits (sampleClasses b) = rejs := rejectedBits_sampleClasses b
  have hlen : outs.length + rejs.length = 3 := by rw [← houts, ← hrejs]; exact length_outputBits_rejectedBits _
  have h := extracts_runClasses (sampleClasses b) ⟨hacc, hhbuf, hbit, hpos⟩ (houts ▸ hroom) (by rw [hrejs]; omega)
  rw [houts, hrejs] at h
  obtain ⟨⟨hbit', hfill, haccBits⟩, ⟨hpos', hready, hhbufBits⟩, hframe⟩ := h
  exact ⟨_, exec_decodeWord_s8 b s, hbit', hfill, hpos', hready, haccBits, hhbufBits, hframe⟩

/-- Settles O8: a class runs the pair step on its pair. -/
theorem classesRunTheVonNeumannStep : Obligations.ClassesRunTheVonNeumannStep := by
  unfold Obligations.ClassesRunTheVonNeumannStep
  intro p s
  rw [exec_ofClass, runClass_eq_pairStep, pairStep]
  split <;> rfl

/-- Settles O9: a sample and its three pair fields run the same three classes. -/
theorem sampleRunsItsPairsInOrder : Obligations.SampleRunsItsPairsInOrder := by
  unfold Obligations.SampleRunsItsPairsInOrder
  intro b s
  exact ⟨_, _, _, exec_decodeWord_p2 _ s, exec_decodeWord_p2 _ _, exec_decodeWord_p2 _ _, exec_decodeWord_s8 b s⟩

/-- Settles O11: an output bit 1 that closes no block. -/
theorem vnOut1AppendsAOne : Obligations.VnOut1AppendsAOne := by
  unfold Obligations.VnOut1AppendsAOne
  intro s hbyte hopen
  exact (exec_outInstr true s).trans (congrArg _ (outputBit_open hopen hbyte))

/-- Settles O12: an output bit 0 that closes no block writes back the byte it read. -/
theorem vnOut0OnlyAdvancesTheCounters : Obligations.VnOut0OnlyAdvancesTheCounters := by
  unfold Obligations.VnOut0OnlyAdvancesTheCounters
  intro s hacc hbyte hopen
  refine (exec_outInstr false s).trans ?_
  rw [outputBit_open hopen hbyte, orBit_false, Mem.write_read hbyte hacc]
  rfl

/-- Settles O13: a push of 0. -/
theorem vnRej0ClearsItsBit : Obligations.VnRej0ClearsItsBit := by
  unfold Obligations.VnRej0ClearsItsBit
  intro s
  refine (exec_rejInstr false s).trans ?_
  rw [rejectBit_spec, putBit_false]
  rfl

/-- Settles O14: a push of 1. -/
theorem vnRej1SetsItsBit : Obligations.VnRej1SetsItsBit := by
  unfold Obligations.VnRej1SetsItsBit
  intro s
  exact (exec_rejInstr true s).trans (congrArg _ (rejectBit_spec true s))

end

section
/-! A block completion (R125-R127, R181, R190, R195-R199): what the bit that fills the block leaves, by the monitor's
answer, the mode and the flags; and a termination (R122, R224, R226) by the phase of the host. -/

namespace Sys2Proof.Machine

/-! ## The disposal of a completed block -/

section
variable {C : Config} {B : List Byte} {k : BitVec 5} {s : State}

theorem disposeBlock_failed (hk : k ≠ 0) :
    disposeBlock C B k s = s.withEvt (s.evt ++ [{ code := .fipsFail, mask := k }]) := if_pos hk

theorem disposeBlock_xor (hk : k = 0) (hmode : s.mode = .xor) : disposeBlock C B k s = xorCondition B s := by
  simp [disposeBlock, hk, hmode]

theorem disposeBlock_aes (hk : k = 0) (hmode : s.mode = .aes) : disposeBlock C B k s = aesCondition C B s := by
  simp [disposeBlock, hk, hmode]

end

/-! ## The bit that fills the block -/

@[simp] theorem length_closingBlock (x : Bool) (s : State) : (closingBlock x s).length = 2500 := Mem.length_bytes _ _

/-- The append leaves the block that it closes in ACC. -/
theorem completedBlock_appended (x : Bool) (s : State) : completedBlock (appended x s) = closingBlock x s := by
  rw [completedBlock, appended_acc]
  rfl

/-- R126: ACC and the counters start again. -/
theorem blockReset_eq (s : State) : blockReset s = { s with acc := [], bitcnt := 0, bytecnt := 0 } := rfl

/-- R125: the closed block is disposed of by the monitor's answer on it, noted in FIPS_LAST32 and LAST_MASK. -/
theorem exec_outInstr_closing (x : Bool) {s : State} (hlast : s.AtLastBit) :
    exec (outInstr x) s = .next (blockReset (disposeBlock specConfig (closingBlock x s) (closingVerdict x s).1
      ((appended x s).withVerdict (closingVerdict x s).2 (closingVerdict x s).1))) := by
  rw [exec_outInstr, outputBit_closing hlast, blockComplete_eq, verdict_appended, completedBlock_appended]
  rfl

/-! ## What an accepted block is turned into -/

/-- R181: each byte of an emission is a byte of the block XORed with the byte of PREV at its index. -/
theorem getD_xorBlock {B : List Byte} (prev : Mem) (hB : B.length = 2500) {j : Nat} (hj : j < 2500) :
    (xorBlock B prev).getD j 0 = B.getD j 0 ^^^ prev.read j := by
  rw [List.getD_eq_getElem _ 0 (by rwa [length_xorBlock prev hB]), List.getD_eq_getElem B 0 (by rwa [hB])]
  simp [xorBlock, xorBytes]

/-- R192: a key or IV is cut from the bytes in order. -/
theorem toList_toBlock16 {bs : List Byte} (h : 16 ≤ bs.length) : (toBlock16 bs).toList = bs.take 16 := by
  refine List.ext_getElem (by simp [h]) fun i hi _ => ?_
  have hlt : i < bs.length := Nat.lt_of_lt_of_le (by simpa using hi) h
  simp [toBlock16, hlt]

/-- R196: a block is padded with twelve bytes 0x0C. -/
theorem pkcs7_block {B : List Byte} (hB : B.length = 2500) : pkcs7 B = B ++ List.replicate 12 0x0C#8 := by
  rw [pkcs7, hB]

/-- R191, R192, R195: the emission for a block, under the first two 16-byte groups of the digest of HBUF. -/
theorem ciphertext_block (hb : Mem) {B : List Byte} (hB : B.length = 2500) :
    ciphertext specConfig hb B = cbcEnc specConfig (toBlock16 (sha512 (hb.bytes 2500)).toList)
      (toBlock16 ((sha512 (hb.bytes 2500)).toList.drop 16)) (B ++ List.replicate 12 0x0C#8) := by
  rw [ciphertext, pkcs7_block hB]
  rfl

/-! ## A termination -/

/-! The host's action in each phase, beside a core that takes no sample. -/

theorem hostStep_notStarted (C : Config) {s : State} (hphase : s.env.phase = .notStarted) :
    hostStep C s = stoppedAct C s := by
  simp only [hostStep, hphase]

theorem hostStep_terminated (C : Config) {s : State} {c : ExitCode} (hphase : s.env.phase = .terminated c) :
    hostStep C s = stoppedAct C s := by
  simp only [hostStep, hphase]

theorem hostStep_readerGone (C : Config) {s : State} (hphase : s.env.phase = .readerGone) :
    hostStep C s = readerGoneAct s := by
  simp only [hostStep, hphase]

/-- A running host acts at its ports when the sink has no emission to answer, or gives no answer (log 9). -/
theorem hostStep_running (C : Config) {s : State} (hphase : s.env.phase = .running)
    (hsink : s.pending = false ∨ s.env.sink = []) : hostStep C s = runningAct C s := by
  rcases hsink with hquiet | hsilent
  · simp only [hostStep, hphase, hquiet]
  · cases hpending : s.pending <;> simp only [hostStep, hphase, hsilent, hpending]

theorem popPort_of_port {s : State} {a : HostAct} {rest : List HostAct} (hport : s.env.port = a :: rest) :
    s.popPort = s.withEnv { s.env with port := rest } := by
  rw [State.popPort, hport, List.tail_cons]

section
variable {s : State} {rest : List HostAct} (hport : s.env.port = .terminate :: rest)
include hport

theorem runningAct_terminate (C : Config) : runningAct C s = .next (s.popPort.inPhase (.terminated .clean)) := by
  simp only [runningAct, hport]

theorem stoppedAct_terminate (C : Config) : stoppedAct C s = .next (terminateStopped s.popPort) := by
  simp only [stoppedAct, hport]

/-- While the reader is gone, a daemon's sink answers before a termination (log 9). -/
theorem readerGoneAct_terminate (hdaemon : s.env.daemon = true) (hsilent : s.env.sink = []) :
    readerGoneAct s = .next (s.popPort.inPhase (.terminated .clean)) := by
  simp only [readerGoneAct, hdaemon, hsilent, hport, if_true]

end

theorem terminateStopped_notStarted {s : State} (hphase : s.env.phase = .notStarted) :
    terminateStopped s = s.inPhase (.terminated .clean) := by
  simp only [terminateStopped, hphase]

/-- A host that has terminated keeps its exit code (R226). -/
theorem terminateStopped_terminated {s : State} {c : ExitCode} (hphase : s.env.phase = .terminated c) :
    terminateStopped s = s := by
  simp only [terminateStopped, hphase]

/-- The phases in which a termination ends the run, each with what comes before it (R224, R226; log 9). -/
theorem step_terminate {s : State} {rest : List HostAct} (hport : s.env.port = .terminate :: rest)
    (h : s.env.phase = .notStarted ∨ (s.env.phase = .running ∧ s.out.length ≤ s.env.taken ∧ s.env.chunk = []) ∨
      (s.env.phase = .running ∧ s.env.taken < s.out.length ∧ s.env.sink = []) ∨
      (s.env.phase = .readerGone ∧ s.env.daemon = true ∧ s.env.sink = [])) :
    step s = .next (s.popPort.inPhase (.terminated .clean)) := by
  rcases h with hphase | ⟨hphase, htaken, hchunk⟩ | ⟨hphase, hoffered, hsilent⟩ | ⟨hphase, hdaemon, hsilent⟩
  · rw [step_of_not_due (dueSample_eq_none (by simp [hphase])), hostStep_notStarted _ hphase,
      stoppedAct_terminate hport, terminateStopped_notStarted (s := s.popPort) hphase]
  · rw [step_of_not_due (dueSample_eq_none (by simp [hport, hchunk])),
      hostStep_running _ hphase (.inl (by simpa [State.pending] using htaken)), runningAct_terminate hport]
  · rw [step_of_not_due (dueSample_eq_none (by simp [State.pending, hoffered])),
      hostStep_running _ hphase (.inr hsilent), runningAct_terminate hport]
  · rw [step_of_not_due (dueSample_eq_none (by simp [hphase])), hostStep_readerGone _ hphase,
      readerGoneAct_terminate hport hdaemon hsilent]

/-- A termination of a host that has already terminated is used up and changes nothing else (R226, log 12). -/
theorem step_terminate_terminated {s : State} {rest : List HostAct} {c : ExitCode}
    (hport : s.env.port = .terminate :: rest) (hphase : s.env.phase = .terminated c) : step s = .next s.popPort := by
  rw [step_of_not_due (dueSample_eq_none (by simp [hphase])), hostStep_terminated _ hphase,
    stoppedAct_terminate hport, terminateStopped_terminated (s := s.popPort) hphase]

end Sys2Proof.Machine

open Sys2Proof Sys2Proof.Machine

/-- Settles O19: a failed block is disposed of by one event. -/
theorem failedBlockIsDiscarded : Obligations.FailedBlockIsDiscarded := by
  unfold Obligations.FailedBlockIsDiscarded
  intro x s hlast hfail
  rw [exec_outInstr_closing x hlast, disposeBlock_failed hfail]
  simp [blockReset_eq]

/-- Settles O20: an accepted block goes to the XOR conditioner, which has no block before it. -/
theorem firstAcceptedBlockIsRetained : Obligations.FirstAcceptedBlockIsRetained := by
  unfold Obligations.FirstAcceptedBlockIsRetained
  intro x s hlast hpass hmode hfirst
  rw [exec_outInstr_closing x hlast, disposeBlock_xor hpass (by simpa using hmode),
    xorCondition_first _ (by simpa using hfirst)]
  simp [blockReset_eq, hpass]

/-- Settles O21: an accepted block goes to the XOR conditioner, which emits it XORed with PREV. -/
theorem laterAcceptedBlockIsXored : Obligations.LaterAcceptedBlockIsXored := by
  unfold Obligations.LaterAcceptedBlockIsXored
  intro x s hlast hpass hmode hlater
  have hlen := length_closingBlock x s
  refine ⟨xorBlock (closingBlock x s) s.prev, length_xorBlock s.prev hlen, fun j => getD_xorBlock s.prev hlen, ?_⟩
  rw [exec_outInstr_closing x hlast, disposeBlock_xor hpass (by simpa using hmode),
    xorCondition_later _ (by simpa using hlater)]
  simp [blockReset_eq, hpass]

/-- Settles O22: an accepted block goes to the AES conditioner, which drops it before HASH_READY. -/
theorem warmupBlockIsDropped : Obligations.WarmupBlockIsDropped := by
  unfold Obligations.WarmupBlockIsDropped
  intro x s hlast hpass hmode hwarm
  rw [exec_outInstr_closing x hlast, disposeBlock_aes hpass (by simpa using hmode),
    aesCondition_drop _ (by simpa using hwarm)]
  simp [blockReset_eq, hpass]

/-- Settles O23: an accepted block goes to the AES conditioner, which emits its ciphertext under the digest of HBUF. -/
theorem acceptedBlockIsEncrypted : Obligations.AcceptedBlockIsEncrypted := by
  unfold Obligations.AcceptedBlockIsEncrypted
  intro x s hlast hpass hmode hready
  refine ⟨_, _, toList_toBlock16 (by simp), toList_toBlock16 (by simp), ?_⟩
  rw [exec_outInstr_closing x hlast, disposeBlock_aes hpass (by simpa using hmode),
    aesCondition_emit _ (by simpa using hready), ciphertext_block _ (length_closingBlock x s)]
  simp [blockReset_eq, hpass]

/-- Settles O53: in each phase the termination is the host's next action, and it changes the host side only. -/
theorem terminationFlushesNothing : Obligations.TerminationFlushesNothing := by
  unfold Obligations.TerminationFlushesNothing
  intro s rest hport
  refine ⟨fun h => ?_, fun c hphase => ?_⟩
  · rw [step_terminate hport h, popPort_of_port hport]
    rfl
  · rw [step_terminate_terminated hport hphase, popPort_of_port hport]
    rfl

end

section
/-! The monitor (R151-R157): the sequence in both scan orders, the poker statistic as a sum over sixteen pattern counts,
the runs of a sequence and their counters, and the first run against the bits the sequence starts with. -/

namespace Sys2Proof.Machine

/-! ## The test sequence in both scan orders -/

theorem getElem_scanByte_lsbFirst (b : Byte) {k : Nat} (hk : k < 8) :
    (scanByte .lsbFirst b)[k]? = some (b.getLsbD k) := by
  simp [scanByte, hk]

theorem getElem_scanByte_msbFirst (b : Byte) {k : Nat} (hk : k < 8) :
    (scanByte .msbFirst b)[k]? = some (b.getLsbD (7 - k)) := by
  simp [scanByte, hk]

/-- The two scans of a byte hold the same bits. -/
theorem scanByte_msbFirst_perm (b : Byte) : (scanByte .msbFirst b).Perm (scanByte .lsbFirst b) :=
  List.reverse_perm (scanByte .lsbFirst b)

theorem seqBits_msbFirst_perm (B : List Byte) : (seqBits .msbFirst B).Perm (seqBits .lsbFirst B) :=
  List.Perm.flatMap_left B fun b _ => scanByte_msbFirst_perm b

/-! ## Segments as numbers at positions -/

/-- The value of segment `m` of a sequence, its first bit most significant (R153). -/
def segmentAt (s : List Bool) (m : Nat) : Nat :=
  8 * (s.getD (4 * m) false).toNat + 4 * (s.getD (4 * m + 1) false).toNat +
    2 * (s.getD (4 * m + 2) false).toNat + (s.getD (4 * m + 3) false).toNat

theorem segmentAt_succ (a b c d : Bool) (s : List Bool) (m : Nat) :
    segmentAt (a :: b :: c :: d :: s) (m + 1) = segmentAt s m := by
  simp [segmentAt, Nat.mul_succ]

theorem segments_eq_map_segmentAt {s : List Bool} {n : Nat} (h : s.length = 4 * n) :
    segments s = (List.range n).map (segmentAt s) := by
  induction n generalizing s with
  | zero => rw [List.eq_nil_of_length_eq_zero h]; rfl
  | succ n ih =>
    match s, h with
    | a :: b :: c :: d :: s, h =>
      have hs : s.length = 4 * n := by simp only [List.length_cons] at h; omega
      simp only [segments, ih hs, List.range_succ_eq_map, List.map_cons, List.map_map]
      refine congrArg₂ List.cons rfl (List.map_congr_left fun m _ => ?_)
      exact (segmentAt_succ a b c d s m).symm

/-! ## Segments of a byte scanned the other way -/

/-- A 4-bit number with its bits in the other order. -/
def nibbleReverse (v : Nat) : Nat := 8 * (v % 2) + 4 * (v / 2 % 2) + 2 * (v / 4 % 2) + v / 8

theorem nibbleReverse_segment (a b c d : Bool) :
    nibbleReverse (8 * a.toNat + 4 * b.toNat + 2 * c.toNat + d.toNat) =
      8 * d.toNat + 4 * c.toNat + 2 * b.toNat + a.toNat := by
  have ha := a.toNat_lt
  have hb := b.toNat_lt
  have hc := c.toNat_lt
  have hd := d.toNat_lt
  simp only [nibbleReverse]
  omega

theorem nibbleReverse_lt {v : Nat} (h : v < 16) : nibbleReverse v < 16 := by
  simp only [nibbleReverse]; omega

theorem nibbleReverse_nibbleReverse {v : Nat} (h : v < 16) : nibbleReverse (nibbleReverse v) = v := by
  revert v; decide

/-- A byte's two segments change places and are reversed in the other scan order (R153). -/
theorem segments_scanByte_msbFirst_perm (b : Byte) :
    (segments (scanByte .msbFirst b)).Perm ((segments (scanByte .lsbFirst b)).map nibbleReverse) := by
  simp only [scanByte, List.range_eq_range', List.range'_succ, List.range'_zero, List.map_cons, List.map_nil, segments,
    nibbleReverse_segment]
  exact List.Perm.swap ..

theorem segments_seqBits (o : ScanOrder) (B : List Byte) :
    segments (seqBits o B) = B.flatMap fun b => segments (scanByte o b) := by
  induction B with
  | nil => rfl
  | cons b B ih => rw [seqBits_cons, segments_append _ (by rw [length_scanByte]), ih, List.flatMap_cons]

theorem segments_seqBits_msbFirst_perm (B : List Byte) :
    (segments (seqBits .msbFirst B)).Perm ((segments (seqBits .lsbFirst B)).map nibbleReverse) := by
  rw [segments_seqBits, segments_seqBits, List.map_flatMap]
  exact List.Perm.flatMap_left B fun b _ => segments_scanByte_msbFirst_perm b

/-! ## The poker statistic -/

theorem pokerSum_eq_sum (s : List Bool) : pokerSum s = ∑ i ∈ Finset.range 16, (segments s).count i ^ 2 := rfl

/-- A value is found among reversed 4-bit numbers as often as its reverse among the numbers. -/
theorem count_map_nibbleReverse {l : List Nat} (hl : ∀ v ∈ l, v < 16) {i : Nat} (hi : i < 16) :
    (l.map nibbleReverse).count i = l.count (nibbleReverse i) := by
  rw [List.count, List.countP_map]
  refine List.countP_congr fun v hv => ?_
  simp only [Function.comp_apply, beq_iff_eq]
  constructor
  · rintro rfl; exact (nibbleReverse_nibbleReverse (hl v hv)).symm
  · rintro rfl; exact nibbleReverse_nibbleReverse hi

theorem pokerSum_msbFirst (B : List Byte) : pokerSum (seqBits .msbFirst B) = pokerSum (seqBits .lsbFirst B) := by
  have hcount (i : Nat) (hi : i ∈ Finset.range 16) :
      (segments (seqBits .msbFirst B)).count i = (segments (seqBits .lsbFirst B)).count (nibbleReverse i) := by
    rw [(segments_seqBits_msbFirst_perm B).count_eq, count_map_nibbleReverse (segments_lt _) (Finset.mem_range.mp hi)]
  rw [pokerSum_eq_sum, pokerSum_eq_sum]
  have hmem (i : Nat) (hi : i ∈ Finset.range 16) : nibbleReverse i ∈ Finset.range 16 :=
    Finset.mem_range.mpr (nibbleReverse_lt (Finset.mem_range.mp hi))
  have hinv (i : Nat) (hi : i ∈ Finset.range 16) : nibbleReverse (nibbleReverse i) = i :=
    nibbleReverse_nibbleReverse (Finset.mem_range.mp hi)
  exact Finset.sum_nbij' nibbleReverse nibbleReverse hmem hmem hinv hinv
    fun i hi => congrArg (· ^ 2) (hcount i hi)

/-- Every segment is counted under one of the sixteen patterns. -/
theorem sum_count_segments (s : List Bool) : ∑ i ∈ Finset.range 16, (segments s).count i = s.length / 4 := by
  rw [← length_segments]
  simpa using Multiset.sum_count_eq_card (m := (segments s : Multiset Nat)) (s := Finset.range 16)
    fun v hv => Finset.mem_range.mpr (segments_lt s v hv)

theorem pokerSum_le (s : List Bool) : pokerSum s ≤ (s.length / 4) ^ 2 := by
  calc pokerSum s = ∑ i ∈ Finset.range 16, (segments s).count i ^ 2 := pokerSum_eq_sum s
    _ ≤ ∑ i ∈ Finset.range 16, (s.length / 4) * (segments s).count i := by
        refine Finset.sum_le_sum fun i _ => ?_
        rw [sq, ← length_segments]
        exact Nat.mul_le_mul_right _ List.count_le_length
    _ = (s.length / 4) ^ 2 := by rw [← Finset.mul_sum, sum_count_segments, sq]

/-- The chord of the square between 312 and 313, the two integers beside 5000 / 16, lies below it at every integer. -/
theorem mul_625_le_sq_add (c : Nat) : 625 * c ≤ c ^ 2 + 312 * 313 := by
  rcases Nat.lt_or_ge c 313 with h | h
  · obtain ⟨d, hd⟩ : ∃ d, 312 = c + d := Nat.exists_eq_add_of_le (by omega)
    nlinarith
  · nlinarith

theorem le_pokerSum (s : List Bool) : 625 * (s.length / 4) ≤ pokerSum s + 16 * (312 * 313) := by
  calc 625 * (s.length / 4) = ∑ i ∈ Finset.range 16, 625 * (segments s).count i := by
        rw [← Finset.mul_sum, sum_count_segments]
    _ ≤ ∑ i ∈ Finset.range 16, ((segments s).count i ^ 2 + 312 * 313) :=
        Finset.sum_le_sum fun i _ => mul_625_le_sq_add _
    _ = pokerSum s + 16 * (312 * 313) := by
        rw [Finset.sum_add_distrib, ← pokerSum_eq_sum, Finset.sum_const, Finset.card_range, smul_eq_mul]

/-! ## The runs of a sequence -/

/-- One more bit in front of the runs stands in front of the bits they spell. -/
theorem flatMap_addToRuns (b : Bool) (rs : List (Bool × Nat)) :
    (addToRuns b rs).flatMap (fun r => List.replicate r.2 r.1) =
      b :: rs.flatMap fun r => List.replicate r.2 r.1 := by
  match rs with
  | [] => rfl
  | (v, n) :: rs =>
    rw [addToRuns_cons]
    split
    · next hv => simp [hv, List.replicate_succ]
    · simp

theorem flatMap_runsOf (s : List Bool) : (runsOf s).flatMap (fun r => List.replicate r.2 r.1) = s := by
  induction s with
  | nil => rfl
  | cons b s ih => rw [runsOf_cons, flatMap_addToRuns, ih]

/-- Every run has at least one bit. -/
theorem runsOf_pos (s : List Bool) : ∀ r ∈ runsOf s, 1 ≤ r.2 := by
  induction s with
  | nil => simp
  | cons b s ih =>
    rw [runsOf_cons]
    cases hr : runsOf s with
    | nil => simp
    | cons r rs =>
      rw [hr, List.forall_mem_cons] at ih
      obtain ⟨hfirst, hrest⟩ := ih
      rw [addToRuns_cons]
      split
      · exact List.forall_mem_cons.mpr ⟨Nat.le_add_left .., hrest⟩
      · exact List.forall_mem_cons.mpr ⟨Nat.le_refl 1, List.forall_mem_cons.mpr ⟨hfirst, hrest⟩⟩

/-- Neighbouring runs differ in value. -/
theorem runsOf_isChain (s : List Bool) : ((runsOf s).map Prod.fst).IsChain (· ≠ ·) := by
  induction s with
  | nil => exact .nil
  | cons b s ih =>
    rw [runsOf_cons]
    cases hr : runsOf s with
    | nil => exact .singleton b
    | cons r rs =>
      rw [hr] at ih
      rw [addToRuns_cons]
      split
      · exact ih
      · next hv => exact List.isChain_cons_cons.mpr ⟨Ne.symm hv, ih⟩

theorem sum_runsOf (s : List Bool) : ((runsOf s).map Prod.snd).sum = s.length := by
  have hspell := congrArg List.length (flatMap_runsOf s)
  rw [List.length_flatMap] at hspell
  simpa using hspell

/-! ## The counters of the runs test -/

theorem runCount_of_lt (rs : List (Bool × Nat)) (v : Bool) {c : Nat} (hc : c < 6) :
    runCount rs v c = rs.countP fun r => r.1 == v && r.2 == c := by
  refine List.countP_congr fun r _ => ?_
  have hmin : min r.2 6 = c ↔ r.2 = c := by omega
  simp [hmin]

/-- Class 6 counts the runs of six or more (R155). -/
theorem runCount_six (rs : List (Bool × Nat)) (v : Bool) :
    runCount rs v 6 = rs.countP fun r => r.1 == v && decide (6 ≤ r.2) := by
  refine List.countP_congr fun r _ => ?_
  have hmin : min r.2 6 = 6 ↔ 6 ≤ r.2 := by omega
  simp [hmin]

theorem runsFail_eq_false (L : FipsLimits) (rs : List (Bool × Nat)) :
    runsFail L rs = false ↔ ∀ v : Bool, ∀ c ∈ [1, 2, 3, 4, 5, 6],
      L.runLo.getD (c - 1) 0 ≤ runCount rs v c ∧ runCount rs v c ≤ L.runHi.getD (c - 1) 0 := by
  have hvalues (p : Bool → Prop) : (∀ v ∈ [false, true], p v) ↔ ∀ v, p v := by simp
  simp only [runsFail, List.any_eq_false, Bool.not_eq_true, runCountFails_eq_false, hvalues]

/-! ## Equal neighbouring bits -/

/-- A sequence starts with `k` equal bits iff its first run has that many. -/
theorem replicate_prefix_iff_le_runsOf {b : Bool} {s : List Bool} {n : Nat} {rs : List (Bool × Nat)}
    (h : runsOf (b :: s) = (b, n) :: rs) (k : Nat) : List.replicate k b <+: b :: s ↔ k ≤ n := by
  induction s generalizing b n rs k with
  | nil =>
    obtain ⟨rfl, -⟩ : 1 = n ∧ [] = rs := by simpa [runsOf_cons] using h
    rw [← List.replicate_one, List.prefix_replicate_iff]
    simp
  | cons c s ih =>
    obtain ⟨m, rs', hm⟩ := runsOf_head c s
    rw [runsOf_cons, hm, addToRuns_cons] at h
    cases k with
    | zero => simp
    | succ k =>
      rw [List.replicate_succ, List.cons_prefix_cons]
      split at h
      · next hcb =>
        subst hcb
        obtain ⟨rfl, -⟩ : m + 1 = n ∧ rs' = rs := by simpa using h
        simp [ih hm]
      · next hcb =>
        obtain ⟨rfl, -⟩ : 1 = n ∧ (c, m) :: rs' = rs := by simpa using h
        cases k <;> simp [List.replicate_succ, Ne.symm hcb]

/-- A long run after one more bit is the first run, or was there before. -/
theorem exists_addToRuns_le {b : Bool} {n k : Nat} {rs rs' : List (Bool × Nat)} (h : addToRuns b rs = (b, n) :: rs') :
    (∃ r ∈ addToRuns b rs, k ≤ r.2) ↔ k ≤ n ∨ ∃ r ∈ rs, k ≤ r.2 := by
  match rs with
  | [] =>
    obtain ⟨rfl, -⟩ : 1 = n ∧ [] = rs' := by simpa using h
    simp
  | (v, m) :: rs =>
    rw [addToRuns_cons] at h ⊢
    split at h
    · next hv =>
      obtain ⟨-, rfl, -⟩ : v = b ∧ m + 1 = n ∧ rs = rs' := by simpa [and_assoc] using h
      have habsorb : k ≤ m + 1 ∨ k ≤ m ↔ k ≤ m + 1 := by omega
      simp only [hv, if_true, List.exists_mem_cons_iff, ← or_assoc, habsorb]
    · next hv =>
      obtain ⟨rfl, -⟩ : 1 = n ∧ (v, m) :: rs = rs' := by simpa using h
      rw [if_neg hv, List.exists_mem_cons_iff]

/-- R157: a run of at least `k` bits is `k` equal bits next to each other. -/
theorem exists_run_iff_replicate_infix {k : Nat} (hk : 0 < k) (s : List Bool) :
    (∃ r ∈ runsOf s, k ≤ r.2) ↔ ∃ v, List.replicate k v <:+: s := by
  induction s with
  | nil => simp [Nat.ne_of_gt hk]
  | cons b s ih =>
    obtain ⟨n, rs, hr⟩ := runsOf_head b s
    have hfirst : (∃ v, List.replicate k v <+: b :: s) ↔ k ≤ n := by
      rw [← replicate_prefix_iff_le_runsOf hr]
      refine ⟨fun ⟨v, hv⟩ => ?_, fun hb => ⟨b, hb⟩⟩
      obtain ⟨k, rfl⟩ := Nat.exists_eq_succ_of_ne_zero (Nat.ne_of_gt hk)
      obtain ⟨rfl, -⟩ := List.cons_prefix_cons.mp (List.replicate_succ ▸ hv)
      exact hv
    rw [runsOf_cons] at hr ⊢
    simp only [exists_addToRuns_le hr, List.infix_cons_iff, exists_or, hfirst, ih]

theorem replicate_infix_iff_getElem {k : Nat} {v : Bool} {s : List Bool} :
    List.replicate k v <:+: s ↔ ∃ i, i + k ≤ s.length ∧ ∀ j, j < k → s[i + j]? = some v := by
  simp [List.infix_iff_getElem?, Nat.add_comm]

end Sys2Proof.Machine

open Sys2Proof Sys2Proof.Machine

/-- Settles O26: a scan of the block is the scans of its bytes, one after the other. -/
theorem sequenceScansTheBlock : Obligations.SequenceScansTheBlock := by
  unfold Obligations.SequenceScansTheBlock
  intro B j k hj hk
  refine ⟨length_seqBits .lsbFirst B, length_seqBits .msbFirst B, ?_, ?_⟩
  · rw [getElem_seqBits .lsbFirst hj hk, getElem_scanByte_lsbFirst _ hk]
  · rw [getElem_seqBits .msbFirst hj hk, getElem_scanByte_msbFirst _ hk]

/-- Settles O27: the strict limits as inclusive intervals, and the segments as the numbers at their positions. -/
theorem monobitAndPokerIntervals : Obligations.MonobitAndPokerIntervals := by
  unfold Obligations.MonobitAndPokerIntervals
  intro s
  refine ⟨?_, ?_, fun n hn => ?_⟩
  · rw [monobit, monobitFails_eq_false, specLimits_monoLo, specLimits_monoHi, ones]
    omega
  · rw [poker, pokerFails_eq_false, specLimits_pokerLo16, specLimits_pokerHi16]
    omega
  · simp only [pokerSum, segments_eq_map_segmentAt hn, List.count, List.countP_map]
    rfl

/-- Settles O28: the other scan order permutes the bits, and permutes the sixteen pattern counts by reversing each
pattern. -/
theorem monobitAndPokerIgnoreScanOrder : Obligations.MonobitAndPokerIgnoreScanOrder := by
  unfold Obligations.MonobitAndPokerIgnoreScanOrder
  intro B
  exact ⟨(seqBits_msbFirst_perm B).count_eq true, pokerSum_msbFirst B⟩

/-- Settles O29: sixteen counts add up to 5000, so the sum of their squares is smallest when each is 312 or 313, and
largest when one is 5000. -/
theorem pokerSumBounds : Obligations.PokerSumBounds := by
  unfold Obligations.PokerSumBounds
  refine ⟨fun s hs => ?_, by decide, by decide⟩
  have hlow := le_pokerSum s
  have hhigh := pokerSum_le s
  rw [hs] at hlow hhigh
  omega

/-- Settles O30, each clause by induction on the sequence. -/
theorem runsAreTheMaximalRuns : Obligations.RunsAreTheMaximalRuns := by
  unfold Obligations.RunsAreTheMaximalRuns
  intro s
  refine ⟨flatMap_runsOf s, runsOf_pos s, fun i hi => ?_, sum_runsOf s⟩
  have hlen : i + 1 < ((runsOf s).map Prod.fst).length := by rwa [List.length_map]
  have hne := List.isChain_iff_getElem.mp (runsOf_isChain s) i hlen
  rw [List.getElem?_eq_getElem (Nat.lt_of_succ_lt hlen), List.getElem?_eq_getElem hlen]
  exact fun heq => hne (Option.some.inj heq)

/-- Settles O31: the twelve counters are those of classes 1 to 5 and of six or more, by value. -/
theorem runsTestChecksTwelveIntervals : Obligations.RunsTestChecksTwelveIntervals := by
  unfold Obligations.RunsTestChecksTwelveIntervals
  intro rs
  simp [runsFail_eq_false, runCount_of_lt, runCount_six]

/-- Settles O32: a long run is a stretch of equal bits, found at its position. -/
theorem longRunIsTwentySixEqualBits : Obligations.LongRunIsTwentySixEqualBits := by
  unfold Obligations.LongRunIsTwentySixEqualBits
  intro s
  rw [longRunFails_eq_true, specLimits_longRun, exists_run_iff_replicate_infix (by decide)]
  simp only [replicate_infix_iff_getElem]
  exact exists_comm

end

section
/-! XOR mode (R181-R186): its output over a whole run, and that it runs the same whatever the hash side of the state
holds. -/

namespace Sys2Proof.Machine

@[simp] theorem mode_afterSamples (bs : List Byte) (s : State) : (afterSamples bs s).mode = s.mode := by
  rw [afterSamples_eq, runClasses_mode]

/-! ## The hash side of the state -/

/-- The state with another hash side: HBUF, HPOS, HASH_READY and KEYREG, and the model's push counter (log 14). -/
def State.withHashSide (s : State) (hb : Mem) (hp : Nat) (hr : Bool) (kr : Mem) (n : Nat) : State :=
  (s.withHash hb hp hr n).withKeyreg kr

section
variable (C : Config) (x : Bool) (s : State) (hb : Mem) (hp : Nat) (hr : Bool) (kr : Mem) (n : Nat)

@[simp] theorem bytecnt_withHashSide : (s.withHashSide hb hp hr kr n).bytecnt = s.bytecnt := rfl

theorem appended_withHashSide :
    appended x (s.withHashSide hb hp hr kr n) = (appended x s).withHashSide hb hp hr kr n := by
  rw [appended_eq, appended_eq]
  rfl

/-- R186: the XOR conditioner neither reads nor writes the hash side. -/
theorem xorCondition_withHashSide (B : List Byte) :
    xorCondition B (s.withHashSide hb hp hr kr n) = (xorCondition B s).withHashSide hb hp hr kr n := by
  cases hhave : s.havePrev with
  | false => rw [xorCondition_first B hhave, xorCondition_first B (s := s.withHashSide hb hp hr kr n) hhave]; rfl
  | true => rw [xorCondition_later B hhave, xorCondition_later B (s := s.withHashSide hb hp hr kr n) hhave]; rfl

variable {s} (hmode : s.mode = .xor)
include hmode

theorem disposeBlock_withHashSide (B : List Byte) (k : BitVec 5) :
    disposeBlock C B k (s.withHashSide hb hp hr kr n) = (disposeBlock C B k s).withHashSide hb hp hr kr n := by
  by_cases hk : k = 0
  · rw [disposeBlock_xor hk hmode, disposeBlock_xor (s := s.withHashSide hb hp hr kr n) hk hmode,
      xorCondition_withHashSide]
  · rw [disposeBlock_failed hk, disposeBlock_failed hk]
    rfl

theorem blockComplete_withHashSide :
    blockComplete C (s.withHashSide hb hp hr kr n) = (blockComplete C s).withHashSide hb hp hr kr n := by
  have hdispose := disposeBlock_withHashSide (s := s.withVerdict (verdict C s).2 (verdict C s).1) C hb hp hr kr n hmode
    (completedBlock s) (verdict C s).1
  exact congrArg blockReset hdispose

theorem outputBit_withHashSide :
    outputBit C x (s.withHashSide hb hp hr kr n) = (outputBit C x s).withHashSide hb hp hr kr n := by
  have hcomplete := blockComplete_withHashSide C hb hp hr kr n ((appended_mode x s).trans hmode)
  rw [outputBit_eq, outputBit_eq, appended_withHashSide, completionCheck, completionCheck, bytecnt_withHashSide,
    hcomplete]
  split <;> rfl

end

/-- Two states in XOR mode that differ in the hash side only, the second one with `kr` in KEYREG. -/
def HashSideApart (kr : Mem) (s t : State) : Prop :=
  s.mode = .xor ∧ ∃ hb hp hr n, t = s.withHashSide hb hp hr kr n

theorem hashSideApart_outputBit (C : Config) {kr : Mem} (x : Bool) (s t : State) (h : HashSideApart kr s t) :
    HashSideApart kr (outputBit C x s) (outputBit C x t) := by
  obtain ⟨hmode, hb, hp, hr, n, rfl⟩ := h
  exact ⟨(outputBit_mode C x s).trans hmode, hb, hp, hr, n, outputBit_withHashSide C x hb hp hr kr n hmode⟩

/-- A push writes the hash side only, and not KEYREG. -/
theorem hashSideApart_rejectBit (C : Config) {kr : Mem} (x : Bool) (s t : State) (h : HashSideApart kr s t) :
    HashSideApart kr (rejectBit C x s) (rejectBit C x t) := by
  obtain ⟨hmode, hb, hp, hr, n, rfl⟩ := h
  exact ⟨hmode, _, _, _, _, rfl⟩

/-! ## What XOR mode leaves alone -/

/-- A run in XOR mode that has written no key and dropped no block for warm-up since the state `s` (R186). -/
def KeepsKeyAndBlocks (s t : State) : Prop :=
  t.mode = .xor ∧ t.keyreg = s.keyreg ∧ eventCount .warmupDrop t.evt = eventCount .warmupDrop s.evt

theorem keepsKeyAndBlocks_blockComplete (C : Config) {s t : State} (h : KeepsKeyAndBlocks s t) :
    KeepsKeyAndBlocks s (blockComplete C t) := by
  obtain ⟨hmode, hkey, hdrop⟩ := h
  refine ⟨(blockComplete_mode C t).trans hmode, ?_⟩
  rcases blockComplete_cases C t with ⟨_, _, _, hk, _, he⟩ | ⟨_, _, _, _, _, hk, _, he⟩ |
    ⟨_, _, _, _, _, hk, _, he⟩ | ⟨_, hm, _⟩ | ⟨_, hm, _⟩
  · exact ⟨hk.trans hkey, by simpa [he] using hdrop⟩
  · exact ⟨hk.trans hkey, by simpa [he] using hdrop⟩
  · exact ⟨hk.trans hkey, by simpa [he] using hdrop⟩
  · rw [hmode] at hm; cases hm
  · rw [hmode] at hm; cases hm

theorem keepsKeyAndBlocks_outputBit (C : Config) {s : State} (x : Bool) (t : State) (h : KeepsKeyAndBlocks s t) :
    KeepsKeyAndBlocks s (outputBit C x t) := by
  have happended : KeepsKeyAndBlocks s (appended x t) := by simpa [KeepsKeyAndBlocks] using h
  rcases outputBit_or C x t with heq | heq <;> rw [heq]
  · exact happended
  · exact keepsKeyAndBlocks_blockComplete C happended

end Sys2Proof.Machine

open Sys2Proof Sys2Proof.Machine

/-- Settles O39: after any samples from reset in XOR mode the state holds its history, of which OUT is one clause. -/
theorem xorModeEmitsNeighbouringAcceptedBlocks : Obligations.XorModeEmitsNeighbouringAcceptedBlocks := by
  unfold Obligations.XorModeEmitsNeighbouringAcceptedBlocks
  intro bs e
  exact ((holds_afterSamples bs .xor e).emitsXor (mode_afterSamples bs _)).out

/-- Settles O42: pair steps keep two states in XOR mode alike in everything but the hash side, and write no key and drop
no block for warm-up. -/
theorem xorModeIgnoresTheHashBuffer : Obligations.XorModeIgnoresTheHashBuffer := by
  unfold Obligations.XorModeIgnoresTheHashBuffer
  intro i s t s' t' hmode hapart hs ht
  obtain ⟨hb, hp, hr, kr, n, rfl⟩ := hapart
  rw [exec_eq, Host.Outcome.next.injEq] at hs ht
  obtain ⟨_, hb', hp', hr', n', hafter⟩ := runClasses_keeps_rel (P := HashSideApart kr)
    (hashSideApart_outputBit specConfig) (hashSideApart_rejectBit specConfig) (instrClasses i)
    ⟨hmode, hb, hp, hr, n, rfl⟩
  obtain ⟨_, hkey, hdrop⟩ := runClasses_keeps (P := KeepsKeyAndBlocks s) (keepsKeyAndBlocks_outputBit specConfig)
    (fun _ _ h => h) (instrClasses i) ⟨hmode, rfl, rfl⟩
  rw [hs] at hafter hkey hdrop
  obtain rfl : t' = s'.withHashSide hb' hp' hr' kr n' := ht.symm.trans hafter
  exact ⟨⟨rfl, rfl, rfl, rfl, rfl, rfl, rfl, rfl, rfl, rfl, hkey, rfl⟩, hdrop⟩

end

section
/-! The AES conditioner (R190, R196, R197, R200): its padding, the chain over the padded blocks, and that AES mode runs
the same whatever PREV and HAVE_PREV hold. -/

namespace Sys2Proof.Machine

/-! ## Padding -/

/-- R196: a padded message is a whole number of 16-byte blocks. -/
theorem length_pkcs7_mod (m : List Byte) : (pkcs7 m).length % 16 = 0 := by
  rw [length_pkcs7]
  omega

/-! ## The chain -/

/-- Ciphertext block `i` of the chain over `P` from the chaining value `c`, by the recurrence of R197. -/
def cipherBlock (enc : Block16 → Block16) (c : Block16) (P : List Byte) : Nat → Block16
  | 0 => enc (toBlock16 (xorBytes (P.take 16) c.toList))
  | i + 1 => enc (toBlock16 (xorBytes ((P.drop (16 * (i + 1))).take 16) (cipherBlock enc c P i).toList))

/-- The chain after its first block is the chain over the rest of the message from that block. -/
theorem cipherBlock_succ (enc : Block16 → Block16) (c : Block16) (P : List Byte) (i : Nat) :
    cipherBlock enc c P (i + 1) = cipherBlock enc (cipherBlock enc c P 0) (P.drop 16) i := by
  induction i with
  | zero => rfl
  | succ i ih =>
    have hdrop : P.drop (16 * (i + 1 + 1)) = (P.drop 16).drop (16 * (i + 1)) := by
      rw [List.drop_drop, Nat.mul_succ, Nat.add_comm]
    change enc (toBlock16 (xorBytes ((P.drop _).take 16) (cipherBlock enc c P (i + 1)).toList)) = _
    rw [ih, hdrop]
    rfl

theorem cbcBlocks_eq_flatMap_cipherBlock (enc : Block16 → Block16) (n : Nat) (c : Block16) (P : List Byte) :
    cbcBlocks enc n c P = (List.range n).flatMap fun i => (cipherBlock enc c P i).toList := by
  induction n generalizing c P with
  | zero => rfl
  | succ n ih =>
    calc cbcBlocks enc (n + 1) c P
      _ = (cipherBlock enc c P 0).toList ++ cbcBlocks enc n (cipherBlock enc c P 0) (P.drop 16) := rfl
      _ = (List.range (n + 1)).flatMap fun i => (cipherBlock enc c P i).toList := by
        simp only [ih, ← cipherBlock_succ, List.range_succ_eq_map, List.flatMap_cons, List.flatMap_map]

/-! ## The retained block -/

section
variable (C : Config) (x : Bool) (s : State) (pv : Mem) (hp : Bool)

theorem appended_withPrev : appended x (s.withPrev pv hp) = (appended x s).withPrev pv hp := by
  rw [appended_eq, appended_eq]
  rfl

/-- R200: the AES conditioner neither reads nor writes PREV and HAVE_PREV. -/
theorem aesCondition_withPrev (B : List Byte) :
    aesCondition C B (s.withPrev pv hp) = (aesCondition C B s).withPrev pv hp := by
  cases hready : s.hashReady with
  | false => rw [aesCondition_drop B hready, aesCondition_drop B (s := s.withPrev pv hp) hready]; rfl
  | true => rw [aesCondition_emit B hready, aesCondition_emit B (s := s.withPrev pv hp) hready]; rfl

variable {s} (hmode : s.mode = .aes)
include hmode

theorem disposeBlock_withPrev (B : List Byte) (k : BitVec 5) :
    disposeBlock C B k (s.withPrev pv hp) = (disposeBlock C B k s).withPrev pv hp := by
  by_cases hk : k = 0
  · rw [disposeBlock_aes hk hmode, disposeBlock_aes (s := s.withPrev pv hp) hk hmode, aesCondition_withPrev]
  · rw [disposeBlock_failed hk, disposeBlock_failed hk]
    rfl

theorem blockComplete_withPrev : blockComplete C (s.withPrev pv hp) = (blockComplete C s).withPrev pv hp :=
  congrArg blockReset (disposeBlock_withPrev (s := s.withVerdict (verdict C s).2 (verdict C s).1) C pv hp hmode
    (completedBlock s) (verdict C s).1)

theorem outputBit_withPrev : outputBit C x (s.withPrev pv hp) = (outputBit C x s).withPrev pv hp := by
  have hcomplete := blockComplete_withPrev C pv hp ((appended_mode x s).trans hmode)
  rw [outputBit_eq, outputBit_eq, appended_withPrev, completionCheck, completionCheck, State.bytecnt_withPrev,
    hcomplete]
  split <;> rfl

end

/-- Two states in AES mode, alike but for `pv` and `hp` in PREV and HAVE_PREV of the second one. -/
def PrevApart (pv : Mem) (hp : Bool) (s t : State) : Prop := s.mode = .aes ∧ t = s.withPrev pv hp

theorem prevApart_outputBit (C : Config) {pv : Mem} {hp : Bool} (x : Bool) (s t : State) (h : PrevApart pv hp s t) :
    PrevApart pv hp (outputBit C x s) (outputBit C x t) := by
  obtain ⟨hmode, rfl⟩ := h
  exact ⟨(outputBit_mode C x s).trans hmode, outputBit_withPrev C x pv hp hmode⟩

theorem prevApart_rejectBit (C : Config) {pv : Mem} {hp : Bool} (x : Bool) (s t : State) (h : PrevApart pv hp s t) :
    PrevApart pv hp (rejectBit C x s) (rejectBit C x t) := by
  obtain ⟨hmode, rfl⟩ := h
  exact ⟨hmode, rfl⟩

/-- R200: whatever PREV and HAVE_PREV hold in AES mode, an instruction leads to the same state beside them. -/
theorem exec_withPrev (i : Instr) {s s' : State} (pv : Mem) (hp : Bool) (hmode : s.mode = .aes)
    (h : exec i s = .next s') : exec i (s.withPrev pv hp) = .next (s'.withPrev pv hp) := by
  rw [exec_eq, Host.Outcome.next.injEq] at h ⊢
  obtain ⟨_, hafter⟩ := runClasses_keeps_rel (P := PrevApart pv hp) (prevApart_outputBit specConfig)
    (prevApart_rejectBit specConfig) (instrClasses i) ⟨hmode, rfl⟩
  rw [hafter, h]

end Sys2Proof.Machine

open Sys2Proof Sys2Proof.Machine

/-- Settles O35: the ciphertext blocks are `cipherBlock`, defined by the recurrence of the statement. -/
theorem cbcChainsItsBlocks : Obligations.CbcChainsItsBlocks := by
  unfold Obligations.CbcChainsItsBlocks
  intro key iv N P hlen
  have hblocks : P.length / 16 = N := by omega
  refine ⟨cipherBlock (aes128 key) iv P, ?_, fun _ => rfl, fun _ _ => rfl⟩
  rw [cbcEnc, hblocks, cbcBlocks_eq_flatMap_cipherBlock]
  rfl

/-- Settles O43: an instruction commutes with any replacement of PREV and HAVE_PREV. Replacing them by what they hold
already changes nothing before the instruction, so nothing after it: they are not written. -/
theorem aesModeIgnoresThePreviousBlock : Obligations.AesModeIgnoresThePreviousBlock := by
  unfold Obligations.AesModeIgnoresThePreviousBlock
  intro i s s' pv hp hmode h
  have hkept : s' = s'.withPrev s.prev s.havePrev :=
    Host.Outcome.next.inj (h.symm.trans (exec_withPrev i s.prev s.havePrev hmode h))
  exact ⟨by rw [hkept, State.prev_withPrev], by rw [hkept, State.havePrev_withPrev], exec_withPrev i pv hp hmode h⟩

/-- Settles O34, by the length of the padding; the padding of a block is `pkcs7_block`. -/
theorem paddingIsPkcs7 : Obligations.PaddingIsPkcs7 := by
  unfold Obligations.PaddingIsPkcs7
  intro m
  have hpad : 1 ≤ 16 - m.length % 16 ∧ 16 - m.length % 16 ≤ 16 := by omega
  refine ⟨⟨16 - m.length % 16, hpad.1, hpad.2, rfl, rfl⟩, length_pkcs7_mod m, fun hlen => ⟨pkcs7_block hlen, ?_⟩⟩
  rw [length_pkcs7, hlen]

end

section
/-! The host beside the core (R220-R229, R240; log 9 to log 13): which of its parts acts in a step, what each act at the
ports leads to, and the duties that every step keeps. -/

namespace Sys2Proof.Machine

/-! ## What acts in a step -/

theorem pending_eq_true {s : State} : s.pending = true ↔ s.env.taken < s.out.length := by simp [State.pending]

theorem pending_eq_false {s : State} : s.pending = false ↔ s.out.length ≤ s.env.taken := by simp [State.pending]

theorem popSink_of_sink {s : State} {a : SinkAct} {rest : List SinkAct} (hsink : s.env.sink = a :: rest) :
    s.popSink = s.withEnv { s.env with sink := rest } := by
  rw [State.popSink, hsink, List.tail_cons]

/-- Before the first reset and after a termination, only the port is looked at (R221, R224). -/
theorem step_stopped {s : State} (hphase : s.env.phase = .notStarted ∨ ∃ c, s.env.phase = .terminated c) :
    step s = stoppedAct specConfig s := by
  rcases hphase with hphase | ⟨c, hphase⟩
  · rw [step_of_not_due (dueSample_eq_none (by simp [hphase])), hostStep_notStarted _ hphase]
  · rw [step_of_not_due (dueSample_eq_none (by simp [hphase])), hostStep_terminated _ hphase]

theorem step_readerGone {s : State} (hphase : s.env.phase = .readerGone) : step s = readerGoneAct s := by
  rw [step_of_not_due (dueSample_eq_none (by simp [hphase])), hostStep_readerGone _ hphase]

section
variable {s : State} (hrun : s.env.phase = .running)
include hrun

/-- The sink answers an offered emission before anything else happens (log 9). -/
theorem step_sink {a : SinkAct} {rest : List SinkAct} (hoffered : s.env.taken < s.out.length)
    (hsink : s.env.sink = a :: rest) : step s = .next (sinkResponse a s) := by
  have hpending := pending_eq_true.2 hoffered
  rw [step_of_not_due (dueSample_eq_none (.inr (.inl hpending)))]
  simp only [hostStep, hrun, hpending, hsink]

/-- While the sink leaves an emission pending, the host acts at its ports and no sample is due (R248). -/
theorem step_held (hoffered : s.env.taken < s.out.length) (hsilent : s.env.sink = []) :
    step s = runningAct specConfig s := by
  rw [step_of_not_due (dueSample_eq_none (.inr (.inl (pending_eq_true.2 hoffered)))),
    hostStep_running _ hrun (.inr hsilent)]

/-- With nothing pending and no sample at hand, the host acts at its ports. -/
theorem step_without_sample (htaken : s.out.length ≤ s.env.taken) (hchunk : s.env.chunk = [])
    (hport : ∀ b rest, s.env.port ≠ .present b :: rest) : step s = runningAct specConfig s := by
  rw [step_of_not_due (dueSample_eq_none (.inr (.inr ⟨hchunk, hport⟩))),
    hostStep_running _ hrun (.inl (pending_eq_false.2 htaken))]

end

/-- Where neither the sink nor a chunk comes first (log 9, log 22), an action other than a sample is the host's next. -/
theorem step_portAct {s : State} (hreader : s.env.phase ≠ .readerGone)
    (hsilent : s.env.phase = .running → s.env.taken < s.out.length → s.env.sink = [])
    (hchunk : s.env.phase = .running → s.out.length ≤ s.env.taken → s.env.chunk = [])
    (hport : ∀ b rest, s.env.port ≠ .present b :: rest) :
    step s = runningAct specConfig s ∨ step s = stoppedAct specConfig s := by
  cases hphase : s.env.phase with
  | notStarted => exact .inr (step_stopped (.inl hphase))
  | running =>
    rcases Nat.lt_or_ge s.env.taken s.out.length with hoffered | htaken
    · exact .inl (step_held hphase hoffered (hsilent hphase hoffered))
    · exact .inl (step_without_sample hphase htaken (hchunk hphase htaken) hport)
  | readerGone => exact absurd hphase hreader
  | terminated c => exact .inr (step_stopped (.inr ⟨c, hphase⟩))

/-! ## Acts at the ports -/

theorem runningAct_nil (C : Config) {s : State} (hport : s.env.port = []) : runningAct C s = .next s := by
  simp only [runningAct, hport]

/-- A chunk at the port of a running core with nothing pending is read (R220). -/
theorem runningAct_chunk (C : Config) {s : State} {len : Nat} {bytes : List Byte} {rest : List HostAct}
    (htaken : s.out.length ≤ s.env.taken) (hport : s.env.port = .chunk len bytes :: rest) :
    runningAct C s = .next (chunkRead len bytes s) := by
  simp only [runningAct, hport, pending_eq_false.2 htaken, Bool.false_eq_true, if_false]

/-- While an emission is pending, what is presented waits (R248). -/
theorem runningAct_held (C : Config) {s : State} (hoffered : s.env.taken < s.out.length)
    (hport : s.env.port = [] ∨ (∃ b rest, s.env.port = .present b :: rest) ∨
      ∃ len bytes rest, s.env.port = .chunk len bytes :: rest) : runningAct C s = .next s := by
  rcases hport with hport | ⟨b, rest, hport⟩ | ⟨len, bytes, rest, hport⟩
  · exact runningAct_nil C hport
  · simp only [runningAct, hport]
  · simp only [runningAct, hport, pending_eq_true.2 hoffered, if_true]

/-- A short read ends the run and presents nothing (R225). -/
theorem chunkRead_short {len : Nat} {bytes : List Byte} (hlen : bytes.length < len) (s : State) :
    chunkRead len bytes s = s.popPort.inPhase (.terminated .error) :=
  if_pos hlen

/-- The samples of a full chunk are the ones in progress (R220). -/
theorem chunkRead_full {len : Nat} {bytes : List Byte} (hlen : len ≤ bytes.length) (s : State) :
    chunkRead len bytes s = s.popPort.withEnv { s.popPort.env with chunk := bytes.take len } :=
  if_neg (Nat.not_lt.2 hlen)

/-- A core that is not running has no use for a sample or a chunk (R227, I15). -/
theorem stoppedAct_sample (C : Config) {s : State} {rest : List HostAct}
    (hport : (∃ b, s.env.port = .present b :: rest) ∨ ∃ len bytes, s.env.port = .chunk len bytes :: rest) :
    stoppedAct C s = .refused .sampleBeforeReset := by
  rcases hport with ⟨b, hport⟩ | ⟨len, bytes, hport⟩ <;> simp only [stoppedAct, hport]

/-! What the host's next action leads to whether or not a run is under way. -/

section
variable {s : State} {rest : List HostAct} {m : Mode}
  (hact : step s = runningAct specConfig s ∨ step s = stoppedAct specConfig s)
include hact

theorem step_assertReset (hport : s.env.port = .assertReset m :: rest) :
    step s = .next (restart specConfig m s) := by
  rcases hact with hact | hact
  · simp only [hact, runningAct, hport]
  · simp only [hact, stoppedAct, hport]

/-- An operation inside another one is refused (R227, R243, I14). -/
theorem step_inside (hport : (∃ b, s.env.port = .presentInside b :: rest) ∨
    ∃ m, s.env.port = .resetInside m :: rest) :
    step s = .refused .operationInProgress := by
  rcases hport with ⟨b, hport⟩ | ⟨m, hport⟩
  · rcases hact with hact | hact
    · simp only [hact, runningAct, hport]
    · simp only [hact, stoppedAct, hport]
  · rcases hact with hact | hact
    · simp only [hact, runningAct, hport]
    · simp only [hact, stoppedAct, hport]

/-- A mode switch without reset is refused (R241, I16). -/
theorem step_switchMode (hport : s.env.port = .switchMode m :: rest) :
    step s = .refused .modeChangeWithoutReset := by
  rcases hact with hact | hact
  · simp only [hact, runningAct, hport]
  · simp only [hact, stoppedAct, hport]

end

/-! ## While the reader is gone -/

section
variable {s : State} {rest : List SinkAct}

theorem readerGoneAct_reopened (hdaemon : s.env.daemon = true) (hsink : s.env.sink = .reopened :: rest) :
    readerGoneAct s = .next (s.popSink.inPhase .running) := by
  simp only [readerGoneAct, hdaemon, hsink, if_true]

theorem readerGoneAct_reopenFailed (hdaemon : s.env.daemon = true) (hsink : s.env.sink = .reopenFailed :: rest) :
    readerGoneAct s = .next (s.popSink.inPhase (.terminated .error)) := by
  simp only [readerGoneAct, hdaemon, hsink, if_true]

/-- Without daemon mode the run ends with an error (R226). -/
theorem readerGoneAct_without_daemon (hdaemon : s.env.daemon = false) :
    readerGoneAct s = .next (s.inPhase (.terminated .error)) := by
  simp only [readerGoneAct, hdaemon, Bool.false_eq_true, if_false]

end

/-! ## The duties -/

/-- The outcome is a next state, and its host keeps its duties. -/
def KeepsDuties (o : Host.Outcome State Fault Refusal) : Prop := ∃ t, o = .next t ∧ t.env.dutiful = true

/-- R227 in three parts: the port's, the daemon's and the non-daemon's. -/
theorem dutiful_iff (e : HostSide) : e.dutiful = true ↔
    dutifulPort e.phase.underWay e.port = true ∧ (e.daemon = true → .reopenFailed ∉ e.sink) ∧
      (e.daemon = false → e.phase ≠ .readerGone ∧ .pipeError ∉ e.sink) := by
  cases hdaemon : e.daemon <;> simp [HostSide.dutiful, hdaemon]

section
variable {s : State} (h : s.env.dutiful = true)
include h

/-- The sink's responses still to come are among the former ones, so a step keeps the duties when the port's are kept
and the reader is gone in daemon mode only. -/
theorem keepsDuties_next {t : State} (hdaemon : t.env.daemon = s.env.daemon) (hsink : t.env.sink ⊆ s.env.sink)
    (hphase : t.env.phase = .readerGone → s.env.daemon = true)
    (hport : dutifulPort t.env.phase.underWay t.env.port = true) : KeepsDuties (.next t) := by
  obtain ⟨-, hfailed, hpipe⟩ := (dutiful_iff _).1 h
  refine ⟨t, rfl, (dutiful_iff _).2 ⟨hport, fun hd hmem => ?_, fun hd => ⟨fun hgone => ?_, fun hmem => ?_⟩⟩⟩
  · exact hfailed (hdaemon ▸ hd) (hsink hmem)
  · exact Bool.noConfusion ((hdaemon.symm.trans hd).symm.trans (hphase hgone))
  · exact (hpipe (hdaemon ▸ hd)).2 (hsink hmem)

/-- The core never refuses a due sample, and taking it uses up no other action. -/
theorem keepsDuties_of_due {b : Byte} (hdue : s.dueSample = some b) : KeepsDuties (step s) := by
  obtain ⟨hport, -, -⟩ := (dutiful_iff _).1 h
  obtain ⟨hrun, -, htake⟩ := dueSample_cases hdue
  have hrunning : ∀ {p : Prop}, s.env.phase = .readerGone → p := fun hgone => nomatch hrun.symm.trans hgone
  rw [step_of_due hdue, exec_decodeWord_s8]
  rcases htake with ⟨bs, -, htake⟩ | ⟨rest, -, hpresent, htake⟩
  · rw [htake]
    exact keepsDuties_next h (by simp) (by simp) (by simpa using hrunning) (by simpa using hport)
  · rw [hpresent, hrun] at hport
    rw [htake]
    exact keepsDuties_next h (by simp) (by simp) (by simpa using hrunning)
      (by simpa [hrun] using (Bool.and_eq_true_iff.1 hport).2)

/-- A pipe error can happen under a dutiful host in daemon mode only, and leaves the run under way. -/
theorem keepsDuties_sinkResponse (hrun : s.env.phase = .running) {a : SinkAct} {rest : List SinkAct}
    (hsink : s.env.sink = a :: rest) : KeepsDuties (.next (sinkResponse a s)) := by
  obtain ⟨hport, -, hpipe⟩ := (dutiful_iff _).1 h
  have htail : s.env.sink.tail ⊆ s.env.sink := List.tail_subset _
  have hrunning : s.env.phase = .readerGone → s.env.daemon = true := fun hgone => nomatch hrun.symm.trans hgone
  cases a with
  | accept n => exact keepsDuties_next h rfl htail hrunning hport
  | pipeError =>
    have hdaemon : s.env.daemon = true := by
      by_contra hd
      exact (hpipe (by simpa using hd)).2 (by simp [hsink])
    rw [hrun] at hport
    exact keepsDuties_next h rfl htail (fun _ => hdaemon) hport
  | reopened => exact keepsDuties_next h rfl htail hrunning hport
  | reopenFailed => exact keepsDuties_next h rfl htail hrunning hport

/-- Where a step uses up the action at the port, what is left at the port is judged by the phase the step leads to. -/
theorem keepsDuties_usedPort {t : State} {a : HostAct} {rest : List HostAct} (hport : s.env.port = a :: rest)
    (hdaemon : t.env.daemon = s.env.daemon) (hsink : t.env.sink = s.env.sink) (hused : t.env.port = s.env.port.tail)
    (hphase : t.env.phase ≠ .readerGone) (hrest : dutifulPort t.env.phase.underWay rest = true) :
    KeepsDuties (.next t) := by
  refine keepsDuties_next h hdaemon (hsink ▸ List.Subset.refl _) (fun hgone => absurd hgone hphase) ?_
  rw [hused, hport]
  exact hrest

/-- A short read ends the run, a full one goes on with it. -/
theorem keepsDuties_chunkRead (hrun : s.env.phase = .running) {len : Nat} {bytes : List Byte} {rest : List HostAct}
    (hport : s.env.port = .chunk len bytes :: rest)
    (hrest : dutifulPort (decide (len ≤ bytes.length)) rest = true) : KeepsDuties (.next (chunkRead len bytes s)) := by
  rcases Nat.lt_or_ge bytes.length len with hshort | hfull
  · rw [chunkRead_short hshort]
    rw [decide_eq_false (Nat.not_le.2 hshort)] at hrest
    exact keepsDuties_usedPort h hport rfl rfl rfl nofun hrest
  · rw [chunkRead_full hfull]
    rw [decide_eq_true hfull] at hrest
    have hgoesOn : dutifulPort s.env.phase.underWay rest = true := by rw [hrun]; exact hrest
    exact keepsDuties_usedPort h hport rfl rfl rfl (fun hgone => nomatch hrun.symm.trans hgone) hgoesOn

/-- A running host: what the duties exclude is what would be refused. -/
theorem keepsDuties_runningAct (C : Config) (hrun : s.env.phase = .running) : KeepsDuties (runningAct C s) := by
  have hduty : dutifulPort true s.env.port = true := by
    simpa [hrun, Phase.underWay] using ((dutiful_iff _).1 h).1
  unfold runningAct
  match hport : s.env.port with
  | [] => exact ⟨s, rfl, h⟩
  | .present _ :: _ => exact ⟨s, rfl, h⟩
  | .chunk len bytes :: rest =>
    rw [hport] at hduty
    cases s.pending with
    | true => exact ⟨s, rfl, h⟩
    | false => exact keepsDuties_chunkRead h hrun hport hduty
  | .assertReset m :: rest =>
    rw [hport] at hduty
    exact keepsDuties_usedPort h hport rfl rfl rfl nofun hduty
  | .terminate :: rest =>
    rw [hport] at hduty
    exact keepsDuties_usedPort h hport rfl rfl rfl nofun hduty
  | .failStartup :: _ | .switchMode _ :: _ | .presentInside _ :: _ | .resetInside _ :: _ =>
    simp [hport, dutifulPort] at hduty

/-- A termination of a host that is not running leaves it not running. -/
theorem keepsDuties_terminateStopped (hstopped : s.env.phase = .notStarted ∨ ∃ c, s.env.phase = .terminated c)
    {rest : List HostAct} (hport : s.env.port = .terminate :: rest) (hrest : dutifulPort false rest = true) :
    KeepsDuties (.next (terminateStopped s.popPort)) := by
  rcases hstopped with hphase | ⟨c, hphase⟩
  · rw [terminateStopped_notStarted (s := s.popPort) hphase]
    exact keepsDuties_usedPort h hport rfl rfl rfl nofun hrest
  · rw [terminateStopped_terminated (s := s.popPort) hphase]
    have hover : dutifulPort s.env.phase.underWay rest = true := by rw [hphase]; exact hrest
    exact keepsDuties_usedPort h hport rfl rfl rfl (fun hgone => nomatch hphase.symm.trans hgone) hover

/-- A host that is not running: the duties exclude samples and chunks, too. -/
theorem keepsDuties_stoppedAct (C : Config) (hstopped : s.env.phase = .notStarted ∨ ∃ c, s.env.phase = .terminated c) :
    KeepsDuties (stoppedAct C s) := by
  have hduty : dutifulPort false s.env.port = true := by
    rcases hstopped with hphase | ⟨c, hphase⟩ <;> simpa [hphase, Phase.underWay] using ((dutiful_iff _).1 h).1
  unfold stoppedAct
  match hport : s.env.port with
  | [] => exact ⟨s, rfl, h⟩
  | .assertReset m :: rest =>
    rw [hport] at hduty
    exact keepsDuties_usedPort h hport rfl rfl rfl nofun hduty
  | .terminate :: rest =>
    rw [hport] at hduty
    exact keepsDuties_terminateStopped h hstopped hport hduty
  | .failStartup :: rest =>
    rw [hport] at hduty
    exact keepsDuties_usedPort h hport rfl rfl rfl nofun hduty
  | .present _ :: _ | .chunk _ _ :: _ | .switchMode _ :: _ | .presentInside _ :: _ | .resetInside _ :: _ =>
    simp [hport, dutifulPort] at hduty

/-- While the reader is gone a dutiful host is in daemon mode, its re-open does not fail for good, and its run is still
under way unless it is terminated. -/
theorem keepsDuties_readerGoneAct (hgone : s.env.phase = .readerGone) : KeepsDuties (readerGoneAct s) := by
  obtain ⟨hduty, hfailed, hpipe⟩ := (dutiful_iff _).1 h
  have hdaemon : s.env.daemon = true := by
    by_contra hd
    exact (hpipe (by simpa using hd)).1 hgone
  have htail : s.env.sink.tail ⊆ s.env.sink := List.tail_subset _
  simp only [readerGoneAct, hdaemon, if_true]
  match hsink : s.env.sink, hport : s.env.port with
  | .reopened :: _, _ =>
    rw [hgone] at hduty
    exact keepsDuties_next h rfl htail nofun hduty
  | .reopenFailed :: _, _ => exact absurd (by simp [hsink]) (hfailed hdaemon)
  | .accept _ :: _, _ | .pipeError :: _, _ => exact keepsDuties_next h rfl htail (fun _ => hdaemon) hduty
  | [], .terminate :: rest =>
    rw [hport] at hduty
    exact keepsDuties_usedPort h hport rfl rfl rfl nofun hduty
  | [], [] | [], .present _ :: _ | [], .chunk _ _ :: _ | [], .assertReset _ :: _ | [], .failStartup :: _
  | [], .switchMode _ :: _ | [], .presentInside _ :: _ | [], .resetInside _ :: _ => exact ⟨s, rfl, h⟩

/-- Whatever acts in a step keeps the duties. -/
theorem keepsDuties_step : KeepsDuties (step s) := by
  cases hdue : s.dueSample with
  | some b => exact keepsDuties_of_due h hdue
  | none =>
    rw [step_of_not_due hdue]
    cases hphase : s.env.phase with
    | notStarted =>
      rw [hostStep_notStarted _ hphase]
      exact keepsDuties_stoppedAct h _ (.inl hphase)
    | terminated c =>
      rw [hostStep_terminated _ hphase]
      exact keepsDuties_stoppedAct h _ (.inr ⟨c, hphase⟩)
    | readerGone =>
      rw [hostStep_readerGone _ hphase]
      exact keepsDuties_readerGoneAct h hphase
    | running =>
      cases hpending : s.pending with
      | false =>
        rw [hostStep_running _ hphase (.inl hpending)]
        exact keepsDuties_runningAct h _ hphase
      | true =>
        cases hsink : s.env.sink with
        | nil =>
          rw [hostStep_running _ hphase (.inr hsink)]
          exact keepsDuties_runningAct h _ hphase
        | cons a rest =>
          rw [← step_of_not_due hdue, step_sink hphase (pending_eq_true.1 hpending) hsink]
          exact keepsDuties_sinkResponse h hphase hsink

end

end Sys2Proof.Machine
open Sys2Proof Sys2Proof.Machine

/-- Settles O56, by what acts in the step: the sample that is due, the sink, or the host in its phase. -/
theorem dutifulHostIsNeverRefused : Obligations.DutifulHostIsNeverRefused := by
  unfold Obligations.DutifulHostIsNeverRefused
  exact fun s h => keepsDuties_step h

/-- Settles O17: an instruction is its pair steps, which write neither MODE nor the host side. -/
theorem everyInstructionCompletes : Obligations.EveryInstructionCompletes := by
  unfold Obligations.EveryInstructionCompletes
  exact fun i s => ⟨_, exec_eq i s, runClasses_mode .., runClasses_env ..⟩

/-- Settles O45: the reset is the host's next action, in a run or outside one. -/
theorem assertedResetRestartsTheCore : Obligations.AssertedResetRestartsTheCore := by
  unfold Obligations.AssertedResetRestartsTheCore
  intro s m rest hport hreader hsilent hchunk
  rw [pending_eq_true] at hsilent
  rw [pending_eq_false] at hchunk
  rw [step_assertReset (step_portAct hreader hsilent hchunk (by simp [hport])) hport, restart, hport]
  rfl

/-- Settles O49: the emission holds whatever is presented. -/
theorem pendingEmissionHoldsTheNextSample : Obligations.PendingEmissionHoldsTheNextSample := by
  unfold Obligations.PendingEmissionHoldsTheNextSample
  intro s hrun hoffered hsilent hport
  rw [step_held hrun hoffered hsilent, runningAct_held _ hoffered hport]

/-- Settles O50: the sink's answer comes first. -/
theorem sinkAcceptanceAdvancesTheOutput : Obligations.SinkAcceptanceAdvancesTheOutput := by
  unfold Obligations.SinkAcceptanceAdvancesTheOutput
  intro s n rest hrun hoffered hsink
  rw [step_sink hrun hoffered hsink, sinkResponse, popSink_of_sink hsink]
  rfl

/-- Settles O51: no sample is due, and nothing is at the port. -/
theorem idleCoreKeepsItsState : Obligations.IdleCoreKeepsItsState := by
  unfold Obligations.IdleCoreKeepsItsState
  rintro s hrun hport (⟨hchunk, htaken⟩ | ⟨hoffered, hsilent⟩)
  · rw [step_without_sample hrun htaken hchunk (by simp [hport]), runningAct_nil _ hport]
  · rw [step_held hrun hoffered hsilent, runningAct_nil _ hport]

/-- Settles O52: the chunk at the port is read, and its length decides. -/
theorem chunksAreTheirSamples : Obligations.ChunksAreTheirSamples := by
  unfold Obligations.ChunksAreTheirSamples
  intro s len bytes rest hrun htaken hchunk hport
  rw [step_without_sample hrun htaken hchunk (by simp [hport]), runningAct_chunk _ htaken hport]
  refine ⟨fun hfull => ?_, fun hshort => ?_⟩
  · rw [chunkRead_full (Nat.le_of_eq hfull.symm), popPort_of_port hport, List.take_of_length_le (Nat.le_of_eq hfull)]
    rfl
  · rw [chunkRead_short hshort, popPort_of_port hport, State.inPhase, ← hchunk]
    rfl

/-- Settles O54: a pipe error is the sink's answer; the rest is what a host whose reader is gone does. -/
theorem readerChangeKeepsTheCore : Obligations.ReaderChangeKeepsTheCore := by
  unfold Obligations.ReaderChangeKeepsTheCore
  refine fun s rest => ⟨fun hrun hoffered hsink => ?_, fun hgone hdaemon hsink => ?_, fun hgone hdaemon hsink => ?_,
    fun hgone hdaemon => ?_⟩
  · rw [step_sink hrun hoffered hsink, sinkResponse, popSink_of_sink hsink]
    rfl
  · rw [step_readerGone hgone, readerGoneAct_reopened hdaemon hsink, popSink_of_sink hsink]
    rfl
  · rw [step_readerGone hgone, readerGoneAct_reopenFailed hdaemon hsink, popSink_of_sink hsink]
    rfl
  · rw [step_readerGone hgone, readerGoneAct_without_daemon hdaemon]
    rfl

/-- Settles O55: each misuse is the host's next action, in a run or outside one. -/
theorem hostMisuseIsRefused : Obligations.HostMisuseIsRefused := by
  unfold Obligations.HostMisuseIsRefused
  refine fun s rest => ⟨fun hstopped hport => ?_, fun hreader hsilent hchunk hport => ?_,
    fun hreader hsilent hchunk hport => ?_⟩
  · rw [step_stopped hstopped, stoppedAct_sample _ hport]
  · have hnoSample : ∀ b l, s.env.port ≠ .present b :: l := by
      rcases hport with ⟨b, hport⟩ | ⟨m, hport⟩ <;> simp [hport]
    exact step_inside (step_portAct hreader hsilent hchunk hnoSample) hport
  · obtain ⟨m, hport⟩ := hport
    exact step_switchMode (step_portAct hreader hsilent hchunk (by simp [hport])) hport

end

section
/-! MODE over one step (R21, R240, R241). -/

namespace Sys2Proof.Machine

/-- Taking a sample leaves MODE as it is: it changes the host side only. -/
@[simp] theorem mode_takeSample (s : State) : s.takeSample.mode = s.mode := by
  obtain ⟨c, p, htake⟩ := takeSample_eq s
  rw [htake, State.mode_withEnv]

end Sys2Proof.Machine

open Sys2Proof Sys2Proof.Machine

/-- Settles O46: a sample's pair steps keep MODE, the host does not touch it, and the one case left is an asserted
reset, which leaves the mode it was asked for. -/
theorem modeChangesOnlyAtReset : Obligations.ModeChangesOnlyAtReset := by
  unfold Obligations.ModeChangesOnlyAtReset
  intro s t h
  rcases step_cases h with ⟨b, _, rfl⟩ | ⟨e, rfl, _⟩ | ⟨m, rest, e, hport, rfl, hrest, _⟩
  · exact .inl ((runClasses_mode ..).trans (mode_takeSample s))
  · exact .inl (State.mode_withEnv ..)
  · exact .inr ⟨m, rest, hport, State.mode_afterReset .., hrest⟩

end
